-- ==== Sys2Proof/Word.lean ====
section
/-! DEFINITION. The bit-vector types of the block, by the spec's widths (00_scope.md R6, R7). -/

namespace Sys2Proof

/-- A byte: a memory cell, a general register, a timer, an immediate `nn` (R6). -/
abbrev Byte := BitVec 8

/-- Sixteen bits: an instruction word, `I`, `PC`, a stack entry (R6). -/
abbrev Word := BitVec 16

/-- A nibble: a register index `x` or `y`, a sprite height `n`, a key number (R301). -/
abbrev Nibble := BitVec 4

/-- The 12-bit address field `nnn` (R301). -/
abbrev Addr := BitVec 12

end Sys2Proof
end

