-- ==== Sys2Proof/Config.lean ====
section
/-! DEFINITION. What is fixed for the machine and what its environment chooses (10_state.md R118):
the default font, the random source, the choice of the captured key. The two configuration parameters
are arguments: FONT of `State.construct` and `State.hostReset`, CYCLES_PER_FRAME of `State.update`
(Machine/Ports.lean; log entries 5 and 15). -/

namespace Sys2Proof

/-- A value of the parameter FONT: 80 bytes, in address order (R118, R209). -/
abbrev Font := Vector Byte 80

/-- The sixteen glyphs, five rows each, of 20_memory.md R209: the default value of the parameter
FONT (D5). PRESUMED: the spec marks the bytes as general knowledge (G2). Unsafe for a claim about
a glyph's shape (log entry 5). -/
def Config.glyphs : List (List Byte) :=
  [[0xF0, 0x90, 0x90, 0x90, 0xF0],
   [0x20, 0x60, 0x20, 0x20, 0x70],
   [0xF0, 0x10, 0xF0, 0x80, 0xF0],
   [0xF0, 0x10, 0xF0, 0x10, 0xF0]] ++
  [[0x90, 0x90, 0xF0, 0x10, 0x10],
   [0xF0, 0x80, 0xF0, 0x10, 0xF0],
   [0xF0, 0x80, 0xF0, 0x90, 0xF0],
   [0xF0, 0x10, 0x20, 0x40, 0x40]] ++
  [[0xF0, 0x90, 0xF0, 0x90, 0xF0],
   [0xF0, 0x90, 0xF0, 0x10, 0xF0],
   [0xF0, 0x90, 0xF0, 0x90, 0x90],
   [0xE0, 0x90, 0xE0, 0x90, 0xE0]] ++
  [[0xF0, 0x80, 0x80, 0x80, 0xF0],
   [0xE0, 0x90, 0x90, 0x90, 0xE0],
   [0xF0, 0x80, 0xF0, 0x80, 0xF0],
   [0xF0, 0x80, 0xF0, 0x80, 0x80]]

/-- The default FONT: the glyphs in address order, 0x000 to 0x04F (R209). -/
def Config.font : Font := ⟨Config.glyphs.flatten.toArray, rfl⟩

/-- The random source (R615, D30): the byte of the `k`-th draw. A FREE VALUE: no body, so any byte,
under no law. Safe (log entry 2). -/
opaque Config.rng : Nat → Byte

/-- The choice among several down keys (R803, D12): a number that `chooseKey` turns into one of the
down keys. A FREE VALUE: no body. Safe (log entry 3). -/
opaque Config.keyChoice : Nat → Nat

end Sys2Proof
end

