-- ==== Sys2Proof/Machine/State.lean ====
section
/-! DEFINITION. The state of the block (10_state.md R100), its reset value (70_reset_and_hazards.md R1100), and the
ways a step can end without a next state. -/

namespace Sys2Proof.Machine

/-- The key-wait state (R114, R808): `Normal`, or `WaitingForKey(reg, key)`. -/
inductive KeyWait where
  | normal
  | waiting (reg key : Nibble)
  deriving DecidableEq, Repr

/-- The error kinds with what each records (60_exceptions.md R1000). `romTooLarge` is only ever returned by
`load` (R1005); the others end a cycle. -/
inductive ErrorKind where
  /-- code 1: dispatch found no row for `op` (R1001) -/
  | unknownOpcode (op : Word)
  /-- code 2: push with `SP = 16` (R1002) -/
  | stackOverflow
  /-- code 3: pop with `SP = 0` (R1003) -/
  | stackUnderflow
  /-- code 4: `load` of more than 3584 bytes (R1005) -/
  | romTooLarge (length : Nat)
  /-- code 5: an access at `addr > 0xFFF` (R1004) -/
  | memoryOutOfBounds (addr : Nat)
  /-- code 6: a key number above 0x0F (R1006) -/
  | keyIndexOutOfRange (value : Byte)
  deriving DecidableEq, Repr

/-- The fault record `(kind, code, pc, op, info)` (R1007). `code` and `info` are functions of the kind (R1000), so
they are computed from it (`ErrorKind.code`, `ErrorKind.info` in Machine/Ops.lean). -/
structure FaultRecord where
  kind : ErrorKind
  /-- the address A of the failing fetch or instruction -/
  pc : Word
  /-- the fetched word, or `none` for a fetch fault -/
  op : Option Word
  deriving DecidableEq, Repr

/-- The display: 32 rows of 64 pixels, `true` is set (R112). -/
abbrev Display := Vector (Vector Bool 64) 32

/-- Memory: the bytes that differ from what an unlisted address reads as (`Memory.unlisted`, Machine/Ops.lean),
addresses strictly rising (`Memory.wf`). -/
abbrev Memory := List Host.Cell

/-- The state tuple of R100, and one field of the model's own (`draws`). -/
structure State where
  /-- `mem`: 4096 bytes at 0x000..0xFFF (R115, R200) -/
  mem : Memory
  /-- `V[0]..V[15]`; `V[15]` is VF, the only flag (R101, R103, R104) -/
  vregs : Vector Byte 16
  /-- `I`, never masked (R105) -/
  i : Word
  /-- `PC` (R106) -/
  pc : Word
  /-- `stack[0..15]` (R108) -/
  stack : Vector Word 16
  /-- `SP`, 0..16 (R108) -/
  sp : Fin 17
  /-- `DT` (R111) -/
  dt : Byte
  /-- `ST` (R111) -/
  st : Byte
  /-- `disp` (R112) -/
  disp : Display
  /-- `keys[0..15]`, `true` is down (R113) -/
  keys : Vector Bool 16
  /-- `wait` (R114) -/
  wait : KeyWait
  /-- `fault` (R117, R1009) -/
  fault : Option FaultRecord
  /-- DESIGN CHOICE, the model's own: how many draws of the environment have been taken, so that each draw reads a
  fresh free value (log entry 4). Safe. -/
  draws : Nat
  deriving DecidableEq, Repr

/-- How a step stops without a next state. The spec's errors are NOT here: a failing cycle has a next state, the one
with `fault` set (R1008). -/
inductive Fault where
  /-- `fault` is set, so neither a cycle nor an update has a step until reset (40_cycle.md R411, R1009). Raised by
  `step` and `State.update`. Safe: the spec gives no further step. -/
  | stuck (record : FaultRecord)
  deriving DecidableEq, Repr

/-- How a step refuses. -/
inductive Refusal where
  /-- An instruction without a meaning. Raised by no arm of `exec`: every row of the table has its meaning. Safe. -/
  | notModelled (mnemonic : String)
  deriving DecidableEq, Repr

/-- The state `reset()` installs, and the state at construction (R1100, R1101), with the default FONT: the table of R100.
Memory lists nothing, so the font reads as `Config.font` and every other byte as 0x00. `State.construct`
(Machine/Ports.lean) is the same for any FONT. -/
def State.reset : State where
  mem := []
  vregs := Vector.replicate 16 0
  i := 0
  pc := 0x200
  stack := Vector.replicate 16 0
  sp := 0
  dt := 0
  st := 0
  disp := Vector.replicate 32 (Vector.replicate 64 false)
  keys := Vector.replicate 16 false
  wait := .normal
  fault := none
  draws := 0

end Sys2Proof.Machine
end

