-- ==== Sys2Proof/Machine/Ops.lean ====
section
/-! DEFINITION. The named operations over memory, registers, stack, display, keys, draws and the fault state. -/

namespace Sys2Proof.Machine

/-! ### Memory (20_memory.md) -/

/-- One more than the highest address: 4096 (R200). -/
def Memory.size : Nat := 0x1000

/-- What an address reads as when nothing is listed for it, the reset contents under the default FONT: the font at
0x000..0x04F, 0x00 elsewhere (R100, R209, R1100). Another FONT's bytes are listed (`Memory.withFont`). -/
def Memory.unlisted (a : Nat) : Byte := if a < 0x50 then Config.font.toList.getD a 0 else 0

/-- The byte at `a` (R202, for `a` in range). -/
def Memory.read : Memory → Nat → Byte
  | [], a => Memory.unlisted a
  | (k, b) :: rest, a => if k = a then b else Memory.read rest a

/-- `mem[a] <- b` (R202, for `a` in range), keeping the canonical form. -/
def Memory.write : Memory → Nat → Byte → Memory
  | [], a, b => if b = Memory.unlisted a then [] else [(a, b)]
  | (k, v) :: rest, a, b =>
    if a < k then if b = Memory.unlisted a then (k, v) :: rest else (a, b) :: (k, v) :: rest
    else if a = k then if b = Memory.unlisted a then rest else (a, b) :: rest
    else (k, v) :: Memory.write rest a b

/-- The canonical form: addresses strictly rising and in range, and no entry equal to what its address reads as
unlisted. -/
abbrev Memory.wf (m : Memory) : Prop :=
  m.Pairwise (fun c d => c.1 < d.1) ∧ ∀ c ∈ m, c.1 < Memory.size ∧ c.2 ≠ Memory.unlisted c.1

/-- The first address above 0xFFF among the `count` addresses from `base` up, in access order (R205, R1004).
Addresses are unbounded naturals and never wrap (R202). -/
def firstOutOfBounds (base : Nat) : Nat → Option Nat
  | 0 => none
  | count + 1 => if 0xFFF < base then some base else firstOutOfBounds (base + 1) count

/-- Write bytes at `base`, `base + 1`, … in increasing address order (R205). -/
def Memory.writeBytes (m : Memory) (base : Nat) : List Byte → Memory
  | [] => m
  | b :: rest => Memory.writeBytes (Memory.write m base b) (base + 1) rest

/-- Memory at construction and reset: FONT at 0x000..0x04F, 0x00 elsewhere (R209, R1100). -/
def Memory.withFont (font : Font) : Memory := Memory.writeBytes [] 0 font.toList

/-- The bytes at `base`, `base + 1`, … in increasing address order (R205). -/
def Memory.readBytes (m : Memory) (base : Nat) : Nat → List Byte
  | 0 => []
  | count + 1 => Memory.read m base :: Memory.readBytes m (base + 1) count

/-! ### General registers (10_state.md R101 to R104) -/

/-- `V[x]`. -/
def State.v (s : State) (x : Nibble) : Byte := s.vregs[x.toNat]'x.isLt

/-- `V[x] <- b`. -/
def State.setV (s : State) (x : Nibble) (b : Byte) : State := { s with vregs := s.vregs.set x.toNat b x.isLt }

/-- VF, the flag register: `V[15]` (R103). -/
def regVF : Nibble := 0xF

/-- `V[0xF] <- f`: a flag is written as 1 or 0 (R104). -/
def State.setVF (s : State) (f : Bool) : State := s.setV regVF (if f then 1 else 0)

/-- `V[i] <- b` for consecutive `i` from `first` up, in increasing order (45_index_memory.md R905). -/
def State.setVs (s : State) (first : Nat) : List Byte → State
  | [] => s
  | b :: rest => State.setVs (s.setV (BitVec.ofNat 4 first) b) (first + 1) rest

/-! ### PC (10_state.md R107, 41_control.md R508, R509) -/

/-- The fetch's `PC <- (PC + 2)[15:0]` (40_cycle.md R403). A meaning starts from the state with `PC = A` and applies
this first, so that it sees `PC = A + 2` (R107; log entry 8). -/
def State.advance (s : State) : State := { s with pc := s.pc + 2 }

/-- `pc <- target`, unchecked (R508). -/
def State.jump (s : State) (target : Word) : State := { s with pc := target }

/-- `if c: pc <- PC + 2` (R509). -/
def State.skipIf (s : State) (c : Bool) : State := if c then { s with pc := s.pc + 2 } else s

/-- `I <- v`. -/
def State.setI (s : State) (v : Word) : State := { s with i := v }

/-! ### The stack (10_state.md R109) -/

/-- `Push(v)`: none when `SP = 16`. -/
def State.push (s : State) (v : Word) : Option State :=
  if h : s.sp.val < 16 then
    some { s with stack := s.stack.set s.sp.val v h, sp := ⟨s.sp.val + 1, Nat.succ_lt_succ h⟩ }
  else none

/-- `Pop()`: the popped value and the state, none when `SP = 0`. The entry keeps its value (R110). -/
def State.pop (s : State) : Option (Word × State) :=
  match s.sp with
  | ⟨0, _⟩ => none
  | ⟨k + 1, h⟩ =>
    some (s.stack[k]'(Nat.lt_of_succ_lt_succ h), { s with sp := ⟨k, Nat.lt_of_succ_lt h⟩ })

/-! ### The display (10_state.md R112) -/

/-- `disp[x][y]`. -/
def Display.pixel (d : Display) (x : Fin 64) (y : Fin 32) : Bool := (d.get y).get x

/-- `disp[x][y] <- not disp[x][y]`. -/
def Display.toggle (d : Display) (x : Fin 64) (y : Fin 32) : Display :=
  d.set y.val ((d.get y).set x.val (!d.pixel x y) x.isLt) y.isLt

/-- Every pixel false. -/
def Display.clear : Display := Vector.replicate 32 (Vector.replicate 64 false)

/-! ### Keys (10_state.md R113) -/

/-- `keys[k]`. -/
def State.key (s : State) (k : Nibble) : Bool := s.keys[k.toNat]'k.isLt

/-- The down keys in increasing order: the set `D` of 44_keypad_timers.md R803. -/
def State.keysDown (s : State) : List Nibble := ((List.range 16).map (BitVec.ofNat 4)).filter (fun k => s.key k)

/-! ### Draws of the environment (10_state.md R118) -/

/-- `draw RNG`: the byte of this draw (42_alu.md R615). -/
def State.rngByte (s : State) : Byte := Config.rng s.draws

/-- One of the down keys `k :: rest`: the `choice`-th, or the last when `choice` passes the end. Every down key is
some choice's, and with one key down there is nothing to choose (R803). -/
def chooseKey (k : Nibble) : List Nibble → Nat → Nibble
  | [], _ => k
  | _ :: _, 0 => k
  | k' :: rest, choice + 1 => chooseKey k' rest choice

/-- The next draw is a fresh one. -/
def State.drawn (s : State) : State := { s with draws := s.draws + 1 }

/-! ### Errors (60_exceptions.md) -/

/-- The code of a kind (R1000; the spec's own numbers, D19). -/
def ErrorKind.code : ErrorKind → Nat
  | .unknownOpcode _ => 1
  | .stackOverflow => 2
  | .stackUnderflow => 3
  | .romTooLarge _ => 4
  | .memoryOutOfBounds _ => 5
  | .keyIndexOutOfRange _ => 6

/-- The info a kind records (R1000). -/
def ErrorKind.info : ErrorKind → Option Nat
  | .unknownOpcode op => some op.toNat
  | .stackOverflow => none
  | .stackUnderflow => none
  | .romTooLarge length => some length
  | .memoryOutOfBounds addr => some addr
  | .keyIndexOutOfRange value => some value.toNat

/-- `raise E(info)`: the ONE way a cycle fails. `s` is the state of before the cycle, so `s.pc = A` and nothing but
`fault` changes (R1007, R1008, R1010). There is no return from it but reset (R1013). -/
def State.raise (s : State) (kind : ErrorKind) (op : Option Word) : Host.Outcome State Fault Refusal :=
  .next { s with fault := some { kind := kind, pc := s.pc, op := op } }

/-- Run `body` unless one of the `count` addresses from `base` up is out of range; then raise
`MemoryOutOfBounds` at the first such address, `op` being the instruction's word (R205). -/
def State.withAccess (s : State) (base count : Nat) (op : Word) (body : State) : Host.Outcome State Fault Refusal :=
  match firstOutOfBounds base count with
  | some a => s.raise (.memoryOutOfBounds a) (some op)
  | none => .next body

end Sys2Proof.Machine
end

