-- ==== Sys2Proof/Machine/Flags.lean ====
section
/-! DEFINITION. The flag computations (10_state.md R104) and the blitter that reports collisions
(43_display.md R702 to R704). Each flag is computed from the operands of before the instruction (42_alu.md R609). -/

namespace Sys2Proof.Machine

/-- Carry out of bit 7: `a + b > 255` (R607). -/
def carryOut (a b : Byte) : Bool := decide (255 < a.toNat + b.toNat)

/-- No borrow: `a ≥ b` (R608). -/
def noBorrow (a b : Byte) : Bool := decide (b.toNat ≤ a.toNat)

/-- The bit a right shift drops: bit 0 (R612). -/
def shiftOutRight (a : Byte) : Bool := a.getLsbD 0

/-- The bit a left shift drops: bit 7 (R614). -/
def shiftOutLeft (a : Byte) : Bool := a.getLsbD 7

/-- Carry out of bit 15: `I + V[x] > 0xFFFF` (45_index_memory.md R901). -/
def indexCarry (i : Word) (a : Byte) : Bool := decide (0xFFFF < i.toNat + a.toNat)

/-- `V[x] <- result`, then `V[0xF] <- flag` (R609, D6): with `x = 0xF` the flag stays. -/
def State.setResultAndFlag (s : State) (x : Nibble) (result : Byte) (flag : Bool) : State :=
  (s.setV x result).setVF flag

/-- The display and whether a pixel has gone from set to unset so far (`VF_new` of R702). -/
structure Canvas where
  disp : Display
  collided : Bool
  deriving DecidableEq, Repr

/-- Column `col` of a sprite row at row `y`: bit `7 - col` toggles the pixel, wrapping in `x` (R702, R703). A toggle
from set to unset is a collision (R704). PRESUMED bit order (G3; log entry 10). -/
def drawColumn (px : Nat) (y : Fin 32) (b : Byte) (c : Canvas) (col : Nat) : Canvas :=
  if b.getLsbD (7 - col) then
    let x := Fin.ofNat 64 (px + col)
    { disp := c.disp.toggle x y, collided := c.collided || c.disp.pixel x y }
  else c

/-- The eight columns of one sprite row (R702). -/
def drawRow (px : Nat) (y : Fin 32) (b : Byte) (c : Canvas) : Canvas := (List.range 8).foldl (drawColumn px y b) c

/-- The sprite rows `bytes`, the first at row `py`, wrapping in `y` (R702). -/
def drawRows (px py : Nat) : List Byte → Canvas → Canvas
  | [], c => c
  | b :: rest, c => drawRows px (py + 1) rest (drawRow px (Fin.ofNat 32 py) b c)

end Sys2Proof.Machine
end

