-- ==== Sys2Proof/Machine/Alu.lean ====
section
/-! DEFINITION. Register loads and ALU (42_alu.md). No instruction here raises an error; operands are the values of
before the instruction (section 1), arithmetic is modulo 256 (R606). -/

namespace Sys2Proof.Machine

/-- 6XNN (R600). -/
def execLdImm (x : Nibble) (nn : Byte) (s : State) : Host.Outcome State Fault Refusal := .next (s.advance.setV x nn)

/-- 7XNN (R601): no flag. -/
def execAddImm (x : Nibble) (nn : Byte) (s : State) : Host.Outcome State Fault Refusal :=
  .next (s.advance.setV x (s.v x + nn))

/-- 8XY0 (R602). -/
def execLdReg (x y : Nibble) (s : State) : Host.Outcome State Fault Refusal := .next (s.advance.setV x (s.v y))

/-- 8XY1 (R603): no flag. -/
def execOrReg (x y : Nibble) (s : State) : Host.Outcome State Fault Refusal :=
  .next (s.advance.setV x (s.v x ||| s.v y))

/-- 8XY2 (R604): no flag. -/
def execAndReg (x y : Nibble) (s : State) : Host.Outcome State Fault Refusal :=
  .next (s.advance.setV x (s.v x &&& s.v y))

/-- 8XY3 (R605): no flag. -/
def execXorReg (x y : Nibble) (s : State) : Host.Outcome State Fault Refusal :=
  .next (s.advance.setV x (s.v x ^^^ s.v y))

/-- 8XY4 (R610): the wrapped sum, then VF is the carry. -/
def execAddReg (x y : Nibble) (s : State) : Host.Outcome State Fault Refusal :=
  .next (s.advance.setResultAndFlag x (s.v x + s.v y) (carryOut (s.v x) (s.v y)))

/-- 8XY5 (R611): `V[x] - V[y]`, then VF is no borrow. -/
def execSubReg (x y : Nibble) (s : State) : Host.Outcome State Fault Refusal :=
  .next (s.advance.setResultAndFlag x (s.v x - s.v y) (noBorrow (s.v x) (s.v y)))

/-- 8XY6 (R612): logical right shift of `V[x]` by 1, then VF is the old bit 0; `y` is ignored (R306). -/
def execShr (x _y : Nibble) (s : State) : Host.Outcome State Fault Refusal :=
  .next (s.advance.setResultAndFlag x (s.v x >>> 1) (shiftOutRight (s.v x)))

/-- 8XY7 (R613): `V[y] - V[x]`, then VF is no borrow of that difference. -/
def execSubnReg (x y : Nibble) (s : State) : Host.Outcome State Fault Refusal :=
  .next (s.advance.setResultAndFlag x (s.v y - s.v x) (noBorrow (s.v y) (s.v x)))

/-- 8XYE (R614): left shift of `V[x]` by 1, then VF is the old bit 7; `y` is ignored (R306). -/
def execShl (x _y : Nibble) (s : State) : Host.Outcome State Fault Refusal :=
  .next (s.advance.setResultAndFlag x (s.v x <<< 1) (shiftOutLeft (s.v x)))

/-- CXNN (R615): a drawn byte under the mask `nn`; each execution draws anew. -/
def execRnd (x : Nibble) (nn : Byte) (s : State) : Host.Outcome State Fault Refusal :=
  .next (s.advance.drawn.setV x (s.rngByte &&& nn))

end Sys2Proof.Machine
end

