-- ==== Sys2Proof/Syntax.lean ====
section
/-! DEFINITION. The instructions: one constructor per row of 30_encoding.md R303, in the table's order.
Operands are the fields of R301 at their own widths, so every term is an instruction the block has. -/

namespace Sys2Proof

inductive Instr where
  /-- 00E0, clear screen (R700) -/
  | cls
  /-- 00EE, return (R501) -/
  | ret
  /-- 1NNN, jump (R500) -/
  | jp (nnn : Addr)
  /-- 2NNN, call (R502) -/
  | call (nnn : Addr)
  /-- 3XNN, skip if `Vx = nn` (R503) -/
  | seImm (x : Nibble) (nn : Byte)
  /-- 4XNN, skip if `Vx ≠ nn` (R504) -/
  | sneImm (x : Nibble) (nn : Byte)
  /-- 5XY0, skip if `Vx = Vy` (R505) -/
  | seReg (x y : Nibble)
  /-- 6XNN, `Vx := nn` (R600) -/
  | ldImm (x : Nibble) (nn : Byte)
  /-- 7XNN, add `nn` to `Vx` (R601) -/
  | addImm (x : Nibble) (nn : Byte)
  /-- 8XY0, `Vx := Vy` (R602) -/
  | ldReg (x y : Nibble)
  /-- 8XY1, or (R603) -/
  | orReg (x y : Nibble)
  /-- 8XY2, and (R604) -/
  | andReg (x y : Nibble)
  /-- 8XY3, exclusive or (R605) -/
  | xorReg (x y : Nibble)
  /-- 8XY4, add with carry flag (R610) -/
  | addReg (x y : Nibble)
  /-- 8XY5, subtract `Vy` from `Vx` (R611) -/
  | subReg (x y : Nibble)
  /-- 8XY6, shift right; `y` is decoded and ignored (R306, R612) -/
  | shr (x y : Nibble)
  /-- 8XY7, subtract `Vx` from `Vy` into `Vx` (R613) -/
  | subnReg (x y : Nibble)
  /-- 8XYE, shift left; `y` is decoded and ignored (R306, R614) -/
  | shl (x y : Nibble)
  /-- 9XY0, skip if `Vx ≠ Vy` (R506) -/
  | sneReg (x y : Nibble)
  /-- ANNN, `I := nnn` (R900) -/
  | ldI (nnn : Addr)
  /-- BNNN, jump to `V0 + nnn` (R507) -/
  | jpV0 (nnn : Addr)
  /-- CXNN, random byte under the mask `nn` (R615) -/
  | rnd (x : Nibble) (nn : Byte)
  /-- DXYN, draw `n` sprite rows at `(Vx, Vy)` (R702) -/
  | drw (x y n : Nibble)
  /-- EX9E, skip if key `Vx` is down (R800) -/
  | skp (x : Nibble)
  /-- EXA1, skip if key `Vx` is up (R801) -/
  | sknp (x : Nibble)
  /-- FX07, `Vx := DT` (R802) -/
  | ldVxDT (x : Nibble)
  /-- FX0A, wait for a key into `Vx` (R803) -/
  | ldVxK (x : Nibble)
  /-- FX15, `DT := Vx` (R805) -/
  | ldDTVx (x : Nibble)
  /-- FX18, `ST := Vx` (R806) -/
  | ldSTVx (x : Nibble)
  /-- FX1E, add `Vx` to `I` with carry flag (R901) -/
  | addIVx (x : Nibble)
  /-- FX29, `I :=` font address of `Vx` (R902) -/
  | ldFVx (x : Nibble)
  /-- FX33, decimal digits of `Vx` to memory (R903) -/
  | ldBVx (x : Nibble)
  /-- FX55, store `V0..Vx` at `I` (R904) -/
  | ldMemVx (x : Nibble)
  /-- FX65, load `V0..Vx` from `I` (R905) -/
  | ldVxMem (x : Nibble)
  deriving DecidableEq, Repr

end Sys2Proof
end

