-- ==== Sys2Proof/WellFormed.lean ====
section
/-! DEFINITION. When an operand fits its field (30_encoding.md R301, R302). The operand NUMBERS a program
text gives are unbounded naturals; `Operand.*` checks one against its field's width and refuses it otherwise.
An `Instr` holds operands that passed: `Instr.WellFormed` says so field by field. -/

namespace Sys2Proof

/-- `value` fits a field of `width` bits (R302: operands are unsigned). -/
def fitsField (width value : Nat) : Bool := decide (value < 2 ^ width)

/-- A register index is 0..15 (R101). -/
def Operand.reg (value : Nat) : Option Nibble :=
  if fitsField 4 value then some (BitVec.ofNat 4 value) else none

/-- A sprite height is 0..15 (R302). -/
def Operand.height (value : Nat) : Option Nibble :=
  if fitsField 4 value then some (BitVec.ofNat 4 value) else none

/-- An immediate `nn` is 0..255 (R302). -/
def Operand.imm (value : Nat) : Option Byte :=
  if fitsField 8 value then some (BitVec.ofNat 8 value) else none

/-- An address field `nnn` is 0..0xFFF (R302). -/
def Operand.addr (value : Nat) : Option Addr :=
  if fitsField 12 value then some (BitVec.ofNat 12 value) else none

/-- Every operand of the instruction fits its field. By the operands' types this holds of every term
(`Laws.wellFormed_all`), so no statement needs it as a hypothesis. -/
def Instr.WellFormed (i : Instr) : Bool :=
  match i with
  | .cls | .ret => true
  | .jp a | .call a | .ldI a | .jpV0 a => fitsField 12 a.toNat
  | .seImm x k | .sneImm x k | .ldImm x k | .addImm x k | .rnd x k =>
    fitsField 4 x.toNat && fitsField 8 k.toNat
  | .seReg x y | .sneReg x y | .ldReg x y | .orReg x y | .andReg x y | .xorReg x y | .addReg x y
  | .subReg x y | .shr x y | .subnReg x y | .shl x y => fitsField 4 x.toNat && fitsField 4 y.toNat
  | .drw x y n => fitsField 4 x.toNat && fitsField 4 y.toNat && fitsField 4 n.toNat
  | .skp x | .sknp x | .ldVxDT x | .ldVxK x | .ldDTVx x | .ldSTVx x | .addIVx x | .ldFVx x | .ldBVx x
  | .ldMemVx x | .ldVxMem x => fitsField 4 x.toNat

end Sys2Proof
end

