-- ==== Sys2Proof/Decode.lean ====
section
/-! DEFINITION. Decoding and encoding (30_encoding.md R300 to R307; 40_cycle.md R404). PRESUMED: most bit patterns
are the spec's general knowledge (G1; log entry 9). Unsafe if a pattern is wrong. -/

namespace Sys2Proof

/-! ### The fields of an instruction word (R301) -/

/-- `c = op[15:12]`, the class. -/
def opClass (op : Word) : Nibble := op.extractLsb' 12 4
/-- `x = op[11:8]`. -/
def opX (op : Word) : Nibble := op.extractLsb' 8 4
/-- `y = op[7:4]`. -/
def opY (op : Word) : Nibble := op.extractLsb' 4 4
/-- `n = op[3:0]`. -/
def opN (op : Word) : Nibble := op.extractLsb' 0 4
/-- `nn = op[7:0]`. -/
def opNN (op : Word) : Byte := op.extractLsb' 0 8
/-- `nnn = op[11:0]`. -/
def opNNN (op : Word) : Addr := op.extractLsb' 0 12

/-- Why bytes are no instruction. -/
inductive DecodeReject where
  /-- the word matches no row of R303 (R305) -/
  | unknownOpcode (op : Word)
  /-- fewer than two bytes are left (R300) -/
  | truncated
  deriving DecidableEq, Repr

/-- The class 0 words: all bits fixed (R303 rows 1 and 2). -/
def decodeClass0 (nnn : Addr) : Option Instr :=
  if nnn = 0x0E0 then some .cls
  else if nnn = 0x0EE then some .ret
  else none

/-- The class 8 words, selected by `n` (R303 rows 10 to 18). -/
def decodeClass8 (x y n : Nibble) : Option Instr :=
  match n.toNat with
  | 0x0 => some (.ldReg x y)
  | 0x1 => some (.orReg x y)
  | 0x2 => some (.andReg x y)
  | 0x3 => some (.xorReg x y)
  | 0x4 => some (.addReg x y)
  | 0x5 => some (.subReg x y)
  | 0x6 => some (.shr x y)
  | 0x7 => some (.subnReg x y)
  | 0xE => some (.shl x y)
  | _ => none

/-- The class E words, selected by `nn` (R303 rows 24 and 25). -/
def decodeClassE (x : Nibble) (nn : Byte) : Option Instr :=
  if nn = 0x9E then some (.skp x)
  else if nn = 0xA1 then some (.sknp x)
  else none

/-- The class F words, selected by `nn` (R303 rows 26 to 34). -/
def decodeClassF (x : Nibble) (nn : Byte) : Option Instr :=
  if nn = 0x07 then some (.ldVxDT x)
  else if nn = 0x0A then some (.ldVxK x)
  else if nn = 0x15 then some (.ldDTVx x)
  else if nn = 0x18 then some (.ldSTVx x)
  else if nn = 0x1E then some (.addIVx x)
  else if nn = 0x29 then some (.ldFVx x)
  else if nn = 0x33 then some (.ldBVx x)
  else if nn = 0x55 then some (.ldMemVx x)
  else if nn = 0x65 then some (.ldVxMem x)
  else none

/-- The row a word's fields select, or none (R303, R304: by class, then by `n`, `nn` or `nnn`). -/
def decodeFields (c x y n : Nibble) (nn : Byte) (nnn : Addr) : Option Instr :=
  match c.toNat with
  | 0x0 => decodeClass0 nnn
  | 0x1 => some (.jp nnn)
  | 0x2 => some (.call nnn)
  | 0x3 => some (.seImm x nn)
  | 0x4 => some (.sneImm x nn)
  | 0x5 => if n = 0 then some (.seReg x y) else none
  | 0x6 => some (.ldImm x nn)
  | 0x7 => some (.addImm x nn)
  | 0x8 => decodeClass8 x y n
  | 0x9 => if n = 0 then some (.sneReg x y) else none
  | 0xA => some (.ldI nnn)
  | 0xB => some (.jpV0 nnn)
  | 0xC => some (.rnd x nn)
  | 0xD => some (.drw x y n)
  | 0xE => decodeClassE x nn
  | 0xF => decodeClassF x nn
  | _ => none

/-- The instruction a word decodes to, or its rejection by name (R404, R405). -/
def decode (op : Word) : Except DecodeReject Instr :=
  match decodeFields (opClass op) (opX op) (opY op) (opN op) (opNN op) (opNNN op) with
  | some i => .ok i
  | none => .error (.unknownOpcode op)

/-- The instruction word of two bytes in memory order: big-endian (20_memory.md R206). -/
def wordOfBytes (first second : Byte) : Word := first ++ second

/-- The byte at the lower address: bits 15..8 (R206). -/
def highByte (op : Word) : Byte := op.extractLsb' 8 8
/-- The byte at the higher address: bits 7..0 (R206). -/
def lowByte (op : Word) : Byte := op.extractLsb' 0 8

/-- Decode the first instruction of a byte sequence; the rest comes back with it (R300: always two bytes). -/
def decodeBytes : List Byte → Except DecodeReject (Instr × List Byte)
  | first :: second :: rest =>
    match decode (wordOfBytes first second) with
    | .ok i => .ok (i, rest)
    | .error e => .error e
  | _ => .error .truncated

/-! ### The encoder (R300, R303) -/

/-- The word `c x y n` from its four nibbles (R300). -/
def wordCXYN (c x y n : Nibble) : Word := c ++ x ++ y ++ n
/-- The word `c x nn` (R300). -/
def wordCXNN (c x : Nibble) (nn : Byte) : Word := c ++ x ++ nn
/-- The word `c nnn` (R300). -/
def wordCNNN (c : Nibble) (nnn : Addr) : Word := c ++ nnn

/-- The word of an instruction (R303). -/
def encode (i : Instr) : Word :=
  match i with
  | .cls => 0x00E0
  | .ret => 0x00EE
  | .jp nnn => wordCNNN 0x1 nnn
  | .call nnn => wordCNNN 0x2 nnn
  | .seImm x nn => wordCXNN 0x3 x nn
  | .sneImm x nn => wordCXNN 0x4 x nn
  | .seReg x y => wordCXYN 0x5 x y 0x0
  | .ldImm x nn => wordCXNN 0x6 x nn
  | .addImm x nn => wordCXNN 0x7 x nn
  | .ldReg x y => wordCXYN 0x8 x y 0x0
  | .orReg x y => wordCXYN 0x8 x y 0x1
  | .andReg x y => wordCXYN 0x8 x y 0x2
  | .xorReg x y => wordCXYN 0x8 x y 0x3
  | .addReg x y => wordCXYN 0x8 x y 0x4
  | .subReg x y => wordCXYN 0x8 x y 0x5
  | .shr x y => wordCXYN 0x8 x y 0x6
  | .subnReg x y => wordCXYN 0x8 x y 0x7
  | .shl x y => wordCXYN 0x8 x y 0xE
  | .sneReg x y => wordCXYN 0x9 x y 0x0
  | .ldI nnn => wordCNNN 0xA nnn
  | .jpV0 nnn => wordCNNN 0xB nnn
  | .rnd x nn => wordCXNN 0xC x nn
  | .drw x y n => wordCXYN 0xD x y n
  | .skp x => wordCXNN 0xE x 0x9E
  | .sknp x => wordCXNN 0xE x 0xA1
  | .ldVxDT x => wordCXNN 0xF x 0x07
  | .ldVxK x => wordCXNN 0xF x 0x0A
  | .ldDTVx x => wordCXNN 0xF x 0x15
  | .ldSTVx x => wordCXNN 0xF x 0x18
  | .addIVx x => wordCXNN 0xF x 0x1E
  | .ldFVx x => wordCXNN 0xF x 0x29
  | .ldBVx x => wordCXNN 0xF x 0x33
  | .ldMemVx x => wordCXNN 0xF x 0x55
  | .ldVxMem x => wordCXNN 0xF x 0x65

/-- The bytes of an instruction, lowest address first (R206). -/
def encodeBytes (i : Instr) : List Byte := [highByte (encode i), lowByte (encode i)]

/-! ### The opcode map as the spec prints it: mask and match of each row (R303) -/

/-- The `mask` column of R303 for the row an instruction belongs to. -/
def rowMask (i : Instr) : Word :=
  match i with
  | .cls | .ret => 0xFFFF
  | .jp _ | .call _ | .seImm _ _ | .sneImm _ _ | .ldImm _ _ | .addImm _ _ | .ldI _ | .jpV0 _ | .rnd _ _
  | .drw _ _ _ => 0xF000
  | .seReg _ _ | .sneReg _ _ | .ldReg _ _ | .orReg _ _ | .andReg _ _ | .xorReg _ _ | .addReg _ _
  | .subReg _ _ | .shr _ _ | .subnReg _ _ | .shl _ _ => 0xF00F
  | .skp _ | .sknp _ | .ldVxDT _ | .ldVxK _ | .ldDTVx _ | .ldSTVx _ | .addIVx _ | .ldFVx _ | .ldBVx _
  | .ldMemVx _ | .ldVxMem _ => 0xF0FF

/-- The `match` column of R303 for the row an instruction belongs to. -/
def rowMatch (i : Instr) : Word :=
  match i with
  | .cls => 0x00E0
  | .ret => 0x00EE
  | .jp _ => 0x1000
  | .call _ => 0x2000
  | .seImm _ _ => 0x3000
  | .sneImm _ _ => 0x4000
  | .seReg _ _ => 0x5000
  | .ldImm _ _ => 0x6000
  | .addImm _ _ => 0x7000
  | .ldReg _ _ => 0x8000
  | .orReg _ _ => 0x8001
  | .andReg _ _ => 0x8002
  | .xorReg _ _ => 0x8003
  | .addReg _ _ => 0x8004
  | .subReg _ _ => 0x8005
  | .shr _ _ => 0x8006
  | .subnReg _ _ => 0x8007
  | .shl _ _ => 0x800E
  | .sneReg _ _ => 0x9000
  | .ldI _ => 0xA000
  | .jpV0 _ => 0xB000
  | .rnd _ _ => 0xC000
  | .drw _ _ _ => 0xD000
  | .skp _ => 0xE09E
  | .sknp _ => 0xE0A1
  | .ldVxDT _ => 0xF007
  | .ldVxK _ => 0xF00A
  | .ldDTVx _ => 0xF015
  | .ldSTVx _ => 0xF018
  | .addIVx _ => 0xF01E
  | .ldFVx _ => 0xF029
  | .ldBVx _ => 0xF033
  | .ldMemVx _ => 0xF055
  | .ldVxMem _ => 0xF065

/-- The rows of R303 as (mask, match) pairs, in the table's order. -/
def opcodeRows : List (Word × Word) :=
  [(0xFFFF, 0x00E0), (0xFFFF, 0x00EE), (0xF000, 0x1000), (0xF000, 0x2000), (0xF000, 0x3000), (0xF000, 0x4000),
   (0xF00F, 0x5000), (0xF000, 0x6000), (0xF000, 0x7000), (0xF00F, 0x8000), (0xF00F, 0x8001), (0xF00F, 0x8002)] ++
  [(0xF00F, 0x8003), (0xF00F, 0x8004), (0xF00F, 0x8005), (0xF00F, 0x8006), (0xF00F, 0x8007), (0xF00F, 0x800E),
   (0xF00F, 0x9000), (0xF000, 0xA000), (0xF000, 0xB000), (0xF000, 0xC000), (0xF000, 0xD000), (0xF0FF, 0xE09E)] ++
  [(0xF0FF, 0xE0A1), (0xF0FF, 0xF007), (0xF0FF, 0xF00A), (0xF0FF, 0xF015), (0xF0FF, 0xF018), (0xF0FF, 0xF01E),
   (0xF0FF, 0xF029), (0xF0FF, 0xF033), (0xF0FF, 0xF055), (0xF0FF, 0xF065)]

/-- A word selects a row when `op & mask == match` (R303). -/
def selectsRow (op : Word) (row : Word × Word) : Bool := op &&& row.1 == row.2

/-- The host's view of the decoder: the instruction of the `nbits` bits of `w`, bit 0 the least significant bit of
the instruction word, bits above `nbits` zero; laid out big-endian and given to `decodeBytes`. -/
def decodeTableWord (nbits w : Nat) : Option Instr :=
  match decodeBytes [BitVec.ofNat 8 (w % 2 ^ nbits / 256), BitVec.ofNat 8 (w % 2 ^ nbits)] with
  | .ok (i, _) => some i
  | .error _ => none

end Sys2Proof
end

