-- ==== Sys2Proof/Machine/Operands.lean ====
section
/-! DEFINITION. The operand forms (30_encoding.md R302): no operand is signed, scaled or shifted. -/

namespace Sys2Proof.Machine

/-- `zext_16(nnn)` (R302). -/
def addrOperand (nnn : Addr) : Word := nnn.setWidth 16

/-- `zext_16(V[x])` (R507, R901, R902). -/
def regOperand16 (s : State) (x : Nibble) : Word := (s.v x).setWidth 16

/-- The registers `V[0]..V[x]` in increasing order (R904). -/
def regsThrough (s : State) (x : Nibble) : List Byte :=
  (List.range (x.toNat + 1)).map (fun k => s.v (BitVec.ofNat 4 k))

/-- The register `V[x]` as a key number 0..15, none above (44_keypad_timers.md R807). -/
def keyOperand (s : State) (x : Nibble) : Option Nibble :=
  if (s.v x).toNat ≤ 0xF then some ((s.v x).setWidth 4) else none

/-- The address of the font glyph of `V[x]`: five times the whole byte (45_index_memory.md R902). -/
def glyphAddress (s : State) (x : Nibble) : Word := regOperand16 s x * 5

/-- The hundreds, tens and units of `V[x]` (45_index_memory.md R903). -/
def decimalDigits (v : Byte) : List Byte :=
  [BitVec.ofNat 8 (v.toNat / 100), BitVec.ofNat 8 (v.toNat / 10 % 10), BitVec.ofNat 8 (v.toNat % 10)]

end Sys2Proof.Machine
end

