-- ==== Sys2Proof/Machine/Control.lean ====
section
/-! DEFINITION. Control transfer (41_control.md): JP, RET, CALL, the skips, JP V0. No instruction here writes a flag. -/

namespace Sys2Proof.Machine

/-- 1NNN (R500): `pc <- zext_16(nnn)`. -/
def execJp (nnn : Addr) (s : State) : Host.Outcome State Fault Refusal := .next (s.advance.jump (addrOperand nnn))

/-- 00EE (R501): pop into `PC`; `StackUnderflow` when `SP = 0`. -/
def execRet (s : State) : Host.Outcome State Fault Refusal :=
  match s.advance.pop with
  | some (target, s') => .next (s'.jump target)
  | none => s.raise .stackUnderflow (some (encode .ret))

/-- 2NNN (R502): push `A + 2` and jump; `StackOverflow` when `SP = 16`. -/
def execCall (nnn : Addr) (s : State) : Host.Outcome State Fault Refusal :=
  match s.advance.push s.advance.pc with
  | some s' => .next (s'.jump (addrOperand nnn))
  | none => s.raise .stackOverflow (some (encode (.call nnn)))

/-- 3XNN (R503). -/
def execSeImm (x : Nibble) (nn : Byte) (s : State) : Host.Outcome State Fault Refusal :=
  .next (s.advance.skipIf (s.v x == nn))

/-- 4XNN (R504). -/
def execSneImm (x : Nibble) (nn : Byte) (s : State) : Host.Outcome State Fault Refusal :=
  .next (s.advance.skipIf (s.v x != nn))

/-- 5XY0 (R505). -/
def execSeReg (x y : Nibble) (s : State) : Host.Outcome State Fault Refusal :=
  .next (s.advance.skipIf (s.v x == s.v y))

/-- 9XY0 (R506). -/
def execSneReg (x y : Nibble) (s : State) : Host.Outcome State Fault Refusal :=
  .next (s.advance.skipIf (s.v x != s.v y))

/-- BNNN (R507): `pc <- zext_16(V[0]) + zext_16(nnn)`, not reduced to 12 bits. -/
def execJpV0 (nnn : Addr) (s : State) : Host.Outcome State Fault Refusal :=
  .next (s.advance.jump (regOperand16 s 0x0 + addrOperand nnn))

end Sys2Proof.Machine
end

