-- ==== Sys2Proof/Machine/Index.lean ====
section
/-! DEFINITION. Index register and memory transfers (45_index_memory.md). A memory transfer checks every address before
any change and leaves `I` as it is (R205, D11). -/

namespace Sys2Proof.Machine

/-- ANNN (R900). -/
def execLdI (nnn : Addr) (s : State) : Host.Outcome State Fault Refusal := .next (s.advance.setI (addrOperand nnn))

/-- FX1E (R901): 16-bit add, then VF is the carry out of bit 15. -/
def execAddIVx (x : Nibble) (s : State) : Host.Outcome State Fault Refusal :=
  .next ((s.advance.setI (s.i + regOperand16 s x)).setVF (indexCarry s.i (s.v x)))

/-- FX29 (R902). -/
def execLdFVx (x : Nibble) (s : State) : Host.Outcome State Fault Refusal := .next (s.advance.setI (glyphAddress s x))

/-- FX33 (R903). -/
def execLdBVx (x : Nibble) (s : State) : Host.Outcome State Fault Refusal :=
  s.withAccess s.i.toNat 3 (encode (.ldBVx x))
    { s.advance with mem := s.mem.writeBytes s.i.toNat (decimalDigits (s.v x)) }

/-- FX55 (R904). -/
def execLdMemVx (x : Nibble) (s : State) : Host.Outcome State Fault Refusal :=
  s.withAccess s.i.toNat (x.toNat + 1) (encode (.ldMemVx x))
    { s.advance with mem := s.mem.writeBytes s.i.toNat (regsThrough s x) }

/-- FX65 (R905). -/
def execLdVxMem (x : Nibble) (s : State) : Host.Outcome State Fault Refusal :=
  s.withAccess s.i.toNat (x.toNat + 1) (encode (.ldVxMem x))
    (s.advance.setVs 0 (s.mem.readBytes s.i.toNat (x.toNat + 1)))

end Sys2Proof.Machine
end

