-- ==== Sys2Proof/Machine/Keypad.lean ====
section
/-! DEFINITION. Keypad, key wait and timer transfers (44_keypad_timers.md). No instruction here writes VF as a flag. -/

namespace Sys2Proof.Machine

/-- EX9E (R800, R807): skip if the key is down; `KeyIndexOutOfRange` for a number above 15. -/
def execSkp (x : Nibble) (s : State) : Host.Outcome State Fault Refusal :=
  match keyOperand s x with
  | some k => .next (s.advance.skipIf (s.key k))
  | none => s.raise (.keyIndexOutOfRange (s.v x)) (some (encode (.skp x)))

/-- EXA1 (R801, R807): skip if the key is up; `KeyIndexOutOfRange` for a number above 15. -/
def execSknp (x : Nibble) (s : State) : Host.Outcome State Fault Refusal :=
  match keyOperand s x with
  | some k => .next (s.advance.skipIf (!s.key k))
  | none => s.raise (.keyIndexOutOfRange (s.v x)) (some (encode (.sknp x)))

/-- FX07 (R802). -/
def execLdVxDT (x : Nibble) (s : State) : Host.Outcome State Fault Refusal := .next (s.advance.setV x s.dt)

/-- FX0A (R803): with no key down `PC` goes back to A, so the instruction runs again next cycle; otherwise a down key
is captured and the block waits for its release. -/
def execLdVxK (x : Nibble) (s : State) : Host.Outcome State Fault Refusal :=
  match s.keysDown with
  | [] => .next { s.advance with pc := s.advance.pc - 2 }
  | k :: rest => .next { s.advance.drawn with wait := .waiting x (chooseKey k rest (Config.keyChoice s.draws)) }

/-- FX15 (R805). -/
def execLdDTVx (x : Nibble) (s : State) : Host.Outcome State Fault Refusal := .next { s.advance with dt := s.v x }

/-- FX18 (R806). -/
def execLdSTVx (x : Nibble) (s : State) : Host.Outcome State Fault Refusal := .next { s.advance with st := s.v x }

/-- `KeyWaitPoll(r, k)` (R804): on the release of the captured key, `V[r] <- k` and back to `Normal`; no fetch, and
`PC` does not move. -/
def keyWaitPoll (r k : Nibble) (s : State) : State :=
  if s.key k then s else { s.setV r (k.setWidth 8) with wait := .normal }

end Sys2Proof.Machine
end

