-- ==== Sys2Proof/Machine/Screen.lean ====
section
/-! DEFINITION. The display instructions (43_display.md): CLS and DRW, the only writers of `disp` (R112). -/

namespace Sys2Proof.Machine

/-- 00E0 (R700). -/
def execCls (s : State) : Host.Outcome State Fault Refusal := .next { s.advance with disp := Display.clear }

/-- The canvas after drawing `n` rows from `I` at `(V[x], V[y])`, all latched first (R702, D7). -/
def drawSprite (s : State) (x y n : Nibble) : Canvas :=
  drawRows (s.v x).toNat (s.v y).toNat (s.mem.readBytes s.i.toNat n.toNat) { disp := s.disp, collided := false }

/-- DXYN (R702): all `n` row addresses are checked before any change; VF is written once, at the end. -/
def execDrw (x y n : Nibble) (s : State) : Host.Outcome State Fault Refusal :=
  s.withAccess s.i.toNat n.toNat (encode (.drw x y n))
    (State.setVF { s.advance with disp := (drawSprite s x y n).disp } (drawSprite s x y n).collided)

end Sys2Proof.Machine
end

