-- ==== Sys2Proof/Machine/Cycle.lean ====
section
/-! DEFINITION. The cycle (40_cycle.md R400 to R406): the key-wait poll, or fetch, decode and dispatch. -/

namespace Sys2Proof.Machine

/-- The fetched word: the bytes at `PC` and `PC + 1`, big-endian; or the first of the two addresses that is above
0xFFF (R401, R402, D18). -/
def State.fetch (s : State) : Except Nat Word :=
  match firstOutOfBounds s.pc.toNat 2 with
  | some a => .error a
  | none => .ok (wordOfBytes (s.mem.read s.pc.toNat) (s.mem.read (s.pc.toNat + 1)))

/-- Fetch, decode, dispatch (R400, `Normal`): the order of the errors is R1011's. The fetch's `PC + 2` is applied by
the meaning itself (`State.advance`). -/
def State.fetchAndExecute (s : State) : Host.Outcome State Fault Refusal :=
  match s.fetch with
  | .error a => s.raise (.memoryOutOfBounds a) none
  | .ok op =>
    match decode op with
    | .error _ => s.raise (.unknownOpcode op) (some op)
    | .ok i => exec i s

/-- `cycle()` (R400): stuck while `fault` is set (R411); the poll alone while waiting (R406). -/
def State.cycle (s : State) : Host.Outcome State Fault Refusal :=
  match s.fault with
  | some r => .fault (.stuck r)
  | none =>
    match s.wait with
    | .waiting r k => .next (keyWaitPoll r k s)
    | .normal => s.fetchAndExecute

/-- Two bytes of an instruction word at `PC`, in fetch order, with everything the next cycle needs to fetch them: the
block not faulted, not waiting, and `PC` where two bytes can be fetched. -/
def State.placeWord (s : State) (op : Word) : State :=
  let pc : Word := if s.pc.toNat < 0xFFF then s.pc else 0x200
  { s with mem := s.mem.writeBytes pc.toNat [highByte op, lowByte op], pc := pc, wait := .normal, fault := none }

end Sys2Proof.Machine
end

