-- ==== Sys2Proof/Machine/Step.lean ====
section
/-! DEFINITION. The step of the machine is one `cycle()` (40_cycle.md R400, R414). The frame update and the host's
other port calls are in Machine/Ports.lean (log entry 1). -/

namespace Sys2Proof.Machine

def step (s : State) : Host.Outcome State Fault Refusal := s.cycle

/-- `s` with the instruction of the `nbits` bits of `w` placed where `step` fetches next (log entry 14). -/
def State.withFetchWord (s : State) (nbits w : Nat) : State := s.placeWord (BitVec.ofNat 16 (w % 2 ^ nbits))

end Sys2Proof.Machine
end

