-- ==== Sys2Proof/Machine/Ports.lean ====
section
/-! DEFINITION. The block's ports (10_state.md R119, 70_reset_and_hazards.md R1108): what the host can do, each one atomic
call between updates. The host has no other move (D27, D28, D34). -/

namespace Sys2Proof.Machine

/-- One timer after a frame: down by 1 while above 0, never below (40_cycle.md R408). -/
def decayed (t : Byte) : Byte := if 0 < t.toNat then t - 1 else t

/-- `TimerDecay()` (R408). -/
def State.timerDecay (s : State) : State := { s with dt := decayed s.dt, st := decayed s.st }

/-- `n` cycles in order; a cycle that fails is the last (R407, R410). -/
def State.runCycles : Nat → State → Host.Outcome State Fault Refusal
  | 0, s => .next s
  | n + 1, s =>
    match step s with
    | .next s' => if s'.fault.isSome then .next s' else State.runCycles n s'
    | .fault r => .fault r
    | .refused r => .refused r

/-- `update()` with `cyclesPerFrame` cycles (R407): the cycles, then one timer decay; no decay when a cycle failed
(R410); no step while `fault` is set (R411). -/
def State.update (cyclesPerFrame : Nat) (s : State) : Host.Outcome State Fault Refusal :=
  match s.fault with
  | some r => .fault (.stuck r)
  | none =>
    match State.runCycles cyclesPerFrame s with
    | .next s' => .next (if s'.fault.isSome then s' else s'.timerDecay)
    | .fault r => .fault r
    | .refused r => .refused r

/-- The state at construction of a block whose parameter FONT is `font` (R1101, R118; log entry 5). -/
def State.construct (font : Font) : State := { State.reset with mem := Memory.withFont font }

/-- `reset()` of a block whose parameter FONT is `font` (R1100), accepted in every state. The environment's draws go on:
the block's reset does not rewind them (log entry 4). -/
def State.hostReset (font : Font) (s : State) : State := { State.construct font with draws := s.draws }

/-- The address programs are loaded at (20_memory.md R210). -/
def programStart : Nat := 0x200

/-- The largest program: 4096 - 0x200 bytes (R210). -/
def maxProgramSize : Nat := 3584

/-- `load(bytes)` (R210, R1005): the image at 0x200, or `RomTooLarge` and no change. -/
def State.load (s : State) (bytes : List Byte) : Except ErrorKind State :=
  if maxProgramSize < bytes.length then .error (.romTooLarge bytes.length)
  else .ok { s with mem := s.mem.writeBytes programStart bytes }

/-- `setKeyState(k, pressed)` for `k` in 0..15 (R120); a larger `k` is no move of the model (D28). -/
def State.setKeyState (s : State) (k : Nibble) (pressed : Bool) : State :=
  { s with keys := s.keys.set k.toNat pressed k.isLt }

/-- `get(x, y)` for `x < 64`, `y < 32` (R121). -/
def State.getPixel (s : State) (x : Fin 64) (y : Fin 32) : Bool := s.disp.pixel x y

/-- The sound-timer port (R122). -/
def State.soundPort (s : State) : Byte := s.st

/-- The error port (R1007): the record `(kind, code, pc, op, info)`. -/
def State.errorPort (s : State) : Option (ErrorKind × Nat × Word × Option Word × Option Nat) :=
  s.fault.map (fun r => (r.kind, r.kind.code, r.pc, r.op, r.kind.info))

end Sys2Proof.Machine
end

