-- ==== Sys2Proof/Safety.lean ====
section
/-! DEFINITION. The terms the statements use: what a state consists of piece by piece, frames, what a good state is, how a
run ends, and what a sprite covers. -/

namespace Sys2Proof.Machine

/-! ### Frames -/

/-- The pieces of the state: each register, byte, pixel, key and stack entry by itself. -/
inductive Component where
  | v (x : Nibble)
  | i
  | pc
  | stackEntry (k : Fin 16)
  | sp
  | dt
  | st
  | pixel (x : Fin 64) (y : Fin 32)
  | key (k : Nibble)
  | wait
  | fault
  /-- the byte that address `a` reads as -/
  | mem (a : Nat)
  | draws
  deriving DecidableEq, Repr

/-- The two states agree on a piece. -/
def Component.same (s t : State) : Component → Prop
  | .v x => t.v x = s.v x
  | .i => t.i = s.i
  | .pc => t.pc = s.pc
  | .stackEntry k => t.stack.get k = s.stack.get k
  | .sp => t.sp = s.sp
  | .dt => t.dt = s.dt
  | .st => t.st = s.st
  | .pixel x y => t.disp.pixel x y = s.disp.pixel x y
  | .key k => t.key k = s.key k
  | .wait => t.wait = s.wait
  | .fault => t.fault = s.fault
  | .mem a => t.mem.read a = s.mem.read a
  | .draws => t.draws = s.draws

/-- From `s` to `t` nothing changes but the pieces `written`: every other piece is the same. -/
def Frame (s t : State) (written : Component → Prop) : Prop := ∀ c, ¬ written c → c.same s t

/-! ### What a failing cycle leaves (60_exceptions.md R1008) -/

/-- `s` with the fault recorded at its own `PC`, and nothing else changed (R1007, R1008). -/
def failed (s : State) (kind : ErrorKind) (op : Option Word) : State :=
  { s with fault := some { kind := kind, pc := s.pc, op := op } }

/-! ### Good states -/

/-- The block runs instructions: not faulted (R411) and not waiting for a key (R406). -/
abbrev Running (s : State) : Prop := s.fault = none ∧ s.wait = .normal

/-- Two bytes can be fetched at `PC` (R402). -/
abbrev Fetchable (s : State) : Prop := s.pc.toNat < 0xFFF

/-- The `count` bytes from `I` up exist (R202, R205). -/
abbrev InRange (s : State) (count : Nat) : Prop := s.i.toNat + count ≤ Memory.size

/-- The word at `PC` (R401). -/
def fetchedWord (s : State) : Word := wordOfBytes (s.mem.read s.pc.toNat) (s.mem.read (s.pc.toNat + 1))

/-- What address `a` reads as with `bytes` laid over memory from `base` up: the byte there, or memory's own elsewhere. -/
def overlaid (m : Memory) (base : Nat) (bytes : List Byte) (a : Nat) : Byte :=
  if base ≤ a ∧ a < base + bytes.length then bytes.getD (a - base) 0 else m.read a

/-- The bounds of R107 and R502: `PC` is at most 0x10FE (BNNN's largest sum) and no return address is above 0x1000. -/
structure Bounded (s : State) : Prop where
  pc_le : s.pc.toNat ≤ 0x10FE
  stack_le : ∀ k : Fin 16, (s.stack.get k).toNat ≤ 0x1000

/-- A recorded fault is the block's own and names the address `PC` still holds (R1005, R1007, R1008). -/
def FaultHere (s : State) : Prop :=
  ∀ r, s.fault = some r → r.pc = s.pc ∧ ∀ n, r.kind ≠ .romTooLarge n

/-- The invariant of the block: memory in its canonical form (which every address of the space, and none outside, can be
listed in), the bounds of R107, and the fault record of R1008. -/
structure Inv (s : State) : Prop where
  mem_wf : s.mem.wf
  bounded : Bounded s
  fault_here : FaultHere s

/-! ### The end of a run (70_reset_and_hazards.md R1107) -/

/-- Parked at `h`: a jump to itself. -/
structure Parked (h : Word) (s : State) : Prop where
  fault_none : s.fault = none
  wait_normal : s.wait = .normal
  pc_eq : s.pc = h
  in_range : h.toNat ≤ 0xFFE
  self_jump : fetchedWord s = encode (.jp (h.setWidth 12))

/-- The run has ended: faulted, or parked. -/
def Ended (s : State) : Prop := s.fault ≠ none ∨ ∃ h, Parked h s

/-! ### What a sprite covers (43_display.md R702, R703) -/

/-- A set sprite bit of row `row`, column `col` lands on pixel `(px, py)`: bit `7 - col` of the byte at `I + row` is set,
and the pixel is `((V[x] + col) mod 64, (V[y] + row) mod 32)`. -/
def SpriteCovers (s : State) (x y n : Nibble) (px : Fin 64) (py : Fin 32) : Prop :=
  ∃ row < n.toNat, ∃ col < 8, (s.mem.read (s.i.toNat + row)).getLsbD (7 - col) = true ∧
    px.val = ((s.v x).toNat + col) % 64 ∧ py.val = ((s.v y).toNat + row) % 32

/-! ### Which instructions write what (10_state.md R100, R103) -/

/-- The instructions that write VF as a flag (R103). -/
def WritesFlag (i : Instr) : Prop :=
  match i with
  | .addReg _ _ | .subReg _ _ | .shr _ _ | .subnReg _ _ | .shl _ _ | .drw _ _ _ | .addIVx _ => True
  | _ => False

/-- The instructions whose `PC` afterwards is not simply A + 2 (the rows of R107's table). -/
def MovesPC (i : Instr) : Prop :=
  match i with
  | .jp _ | .call _ | .ret | .jpV0 _ | .seImm _ _ | .sneImm _ _ | .seReg _ _ | .sneReg _ _ | .skp _ | .sknp _
  | .ldVxK _ => True
  | _ => False

/-- The register an instruction's own result goes to, if it has one; `ldVxMem` writes all of `V0..Vx`. -/
def destinations (i : Instr) (r : Nibble) : Prop :=
  match i with
  | .ldImm x _ | .addImm x _ | .ldReg x _ | .orReg x _ | .andReg x _ | .xorReg x _ | .addReg x _ | .subReg x _
  | .shr x _ | .subnReg x _ | .shl x _ | .rnd x _ | .ldVxDT x => r = x
  | .ldVxMem x => r.toNat ≤ x.toNat
  | _ => False

end Sys2Proof.Machine
end

