-- ==== Sys2Proof/Certificates/Slice0/Obligations.lean ====
section
/-! DEFINITION. The statements for the provers. `A` is the instruction's own address, the `PC` of the state `exec` is given;
`Frame s t written` says that nothing but the pieces `written` differs between `s` and `t`. -/

open Sys2Proof Sys2Proof.Machine

/-! ### Encoding -/

/-- Decoding the word of an instruction gives the instruction back, whatever its operands (30_encoding.md R300, R301, R303:
no bit of an encoding is dropped). Most bit patterns are the spec's general knowledge, G1 (log entry 9); the kept `y` of the
shifts is the spec's decision D9. -/
def Obligations.DecodeOfEncode : Prop := ∀ i : Instr, decode (encode i) = .ok i

/-- A word that decodes is the word of the instruction it decodes to: each word has one meaning (R303, R306: the ignored `y`
of the shifts is kept). -/
def Obligations.EncodeOfDecode : Prop := ∀ (op : Word) (i : Instr), decode op = .ok i → encode i = op

/-- The decoder is the opcode map: a word that decodes is selected by the mask and match of its instruction's row, and a word
is rejected exactly when it matches no row (R303, R305). Most bit patterns are general knowledge in the spec, G1 (log entry 9),
and 5XYN, 9XYN with N ≠ 0 being illegal is its decision D8. -/
def Obligations.DecodeFollowsOpcodeMap : Prop :=
  ∀ op : Word,
    (∀ i, decode op = .ok i → selectsRow op (rowMask i, rowMatch i) = true) ∧
    (decode op = .error (.unknownOpcode op) ↔ ∀ row ∈ opcodeRows, selectsRow op row = false)

/-- No word is selected by two rows of the opcode map (R303, R304; G1, log entry 9). -/
def Obligations.OpcodeRowsDisjoint : Prop :=
  opcodeRows.Pairwise (fun a b => ∀ op : Word, ¬ (selectsRow op a = true ∧ selectsRow op b = true))

/-- Bytes decode big-endian, two at a time, and fewer than two are refused (R300; 20_memory.md R206). -/
def Obligations.BytesDecodeBigEndian : Prop :=
  (∀ (i : Instr) (rest : List Byte), decodeBytes (encodeBytes i ++ rest) = .ok (i, rest)) ∧
  (∀ bytes : List Byte, bytes.length < 2 → decodeBytes bytes = .error .truncated)

/-- The words whose bit patterns the spec shows in worked examples decode to their instructions (95_test_vectors.md E8 to
E12, and the DXYN of section 2.5). -/
def Obligations.SampleWordsDecode : Prop :=
  decode 0x00E0 = .ok .cls ∧ decode 0x00EE = .ok .ret ∧ decode 0x2204 = .ok (.call 0x204) ∧
  decode 0x6005 = .ok (.ldImm 0x0 0x05) ∧ decode 0x7003 = .ok (.addImm 0x0 0x03) ∧ decode 0xB200 = .ok (.jpV0 0x200) ∧
  decode 0xC300 = .ok (.rnd 0x3 0x00) ∧ decode 0xD452 = .ok (.drw 0x4 0x5 0x2)

/-! ### The cycle -/

/-- A step of a running block whose fetched word decodes to `i` is `exec i` (40_cycle.md R400, R405). -/
def Obligations.StepRunsDecoded : Prop :=
  ∀ (s : State) (i : Instr), Running s → Fetchable s → decode (fetchedWord s) = .ok i → step s = exec i s

/-- The fetched word is `(mem[PC] << 8) | mem[PC + 1]` (40_cycle.md R401). -/
def Obligations.FetchIsBigEndian : Prop :=
  ∀ s : State, Fetchable s → ∃ op, s.fetch = .ok op ∧
    op.toNat = (s.mem.read s.pc.toNat).toNat <<< 8 ||| (s.mem.read (s.pc.toNat + 1)).toNat

/-- A fetch at `PC ≥ 0xFFF` records `MemoryOutOfBounds` with the first address above 0xFFF and no word, and nothing else
changes (40_cycle.md R402; the address reported and the record are the spec's decisions D18, D19). -/
def Obligations.FetchOutOfRangeFaults : Prop :=
  ∀ s : State, Running s → 0xFFF ≤ s.pc.toNat →
    step s = .next (failed s (.memoryOutOfBounds (if s.pc.toNat = 0xFFF then 0x1000 else s.pc.toNat)) none)

/-- A fetched word that matches no row of the opcode map records `UnknownOpcode` with the word, and nothing else changes
(30_encoding.md R305; 40_cycle.md R405; the record is the spec's decision D19). -/
def Obligations.UnknownOpcodeFaults : Prop :=
  ∀ s : State, Running s → Fetchable s → (∀ row ∈ opcodeRows, selectsRow (fetchedWord s) row = false) →
    step s = .next (failed s (.unknownOpcode (fetchedWord s)) (some (fetchedWord s)))

/-- A faulted block has no step and no update (40_cycle.md R411, the spec's decision D14). -/
def Obligations.FaultedBlockIsStuck : Prop :=
  ∀ (s : State) (r : FaultRecord) (n : Nat), s.fault = some r →
    step s = .fault (.stuck r) ∧ s.update n = .fault (.stuck r)

/-- A block that is not faulted always has a next state: no instruction is refused and none stops the machine outright
(40_cycle.md R400; 60_exceptions.md R1008). -/
def Obligations.UnfaultedBlockSteps : Prop :=
  (∀ (i : Instr) (s : State), ∃ t, exec i s = .next t) ∧ ∀ s : State, s.fault = none → ∃ t, step s = .next t

/-- Faults are precise: a failing step changes nothing but `fault`; the record names the failing address, which `PC` still
holds, and the fetched word, or none when the fetch itself failed; a waiting block does not fail (60_exceptions.md R1007,
R1008, the spec's decisions D14, D19). -/
def Obligations.FaultsArePrecise : Prop :=
  ∀ (s t : State) (r : FaultRecord), s.fault = none → step s = .next t → t.fault = some r →
    t = { s with fault := some r } ∧ r.pc = s.pc ∧ s.wait = .normal ∧
    (if s.pc.toNat < 0xFFF then r.op = some (fetchedWord s) else r.op = none)

/-- Every instruction but the jumps, call, return, skips and FX0A leaves `PC = A + 2` when it does not fail (10_state.md
R107). -/
def Obligations.OrdinaryInstructionAdvances : Prop :=
  ∀ (i : Instr) (s t : State), ¬ MovesPC i → s.fault = none → exec i s = .next t → t.fault = none → t.pc = s.pc + 2

/-! ### Reset and invariants -/

/-- Reset installs the table of R100 from every state and for every FONT: `PC` at 0x200, the font, and zeros, false, Normal and
None elsewhere; construction gives the same, and the model's reset state is construction with the default FONT. The values other
than `PC` and the font's place are the spec's decisions D1 to D5 (log entry 6), the default font's bytes its general knowledge G2
(log entry 5). The draws go on (log entry 4). -/
def Obligations.ResetInstallsTable : Prop :=
  (∀ (font : Font) (s t : State), t = s.hostReset font →
    t.pc = 0x200 ∧ t.i = 0 ∧ t.sp = 0 ∧ t.dt = 0 ∧ t.st = 0 ∧ t.wait = .normal ∧ t.fault = none ∧ t.draws = s.draws ∧
    (∀ r, t.v r = 0) ∧ (∀ k, t.stack.get k = 0) ∧ (∀ k, t.key k = false) ∧ (∀ x y, t.getPixel x y = false) ∧
    (∀ (d : Fin 16) (j : Fin 5), t.mem.read (5 * d + j) = font[5 * d.val + j.val]) ∧
    (∀ a, 0x50 ≤ a → t.mem.read a = 0) ∧
    (∀ c : Component, c ≠ .draws → c.same t (State.construct font))) ∧
  State.construct Config.font = State.reset

/-- With nothing loaded, the first cycle after a reset records `UnknownOpcode(0x0000)` at 0x200, and so ends an update of any
positive number of cycles, whatever FONT is (70_reset_and_hazards.md R1104, which the spec derives). -/
def Obligations.UnloadedBlockFaults : Prop :=
  ∀ (font : Font) (s t : State) (n : Nat), t = s.hostReset font →
    step t = .next (failed t (.unknownOpcode 0x0000) (some 0x0000)) ∧
    t.update (n + 1) = .next (failed t (.unknownOpcode 0x0000) (some 0x0000))

/-- The invariant holds at construction and after every reset, for every FONT (R1100, R1101). -/
def Obligations.InvAtReset : Prop :=
  Inv State.reset ∧ ∀ font : Font, Inv (State.construct font) ∧ ∀ s : State, Inv (s.hostReset font)

/-- Every step keeps the invariant: canonical memory, `PC ≤ 0x10FE` and return addresses `≤ 0x1000` (10_state.md R107: no rule
carries `PC` past 0x10FE; 41_control.md R502), and a fault record at the current `PC`. -/
def Obligations.StepKeepsInv : Prop := ∀ s t : State, Inv s → step s = .next t → Inv t

/-- The host's moves keep the invariant (70_reset_and_hazards.md R1108). -/
def Obligations.PortsKeepInv : Prop :=
  ∀ s t : State, Inv s →
    (∀ n, s.update n = .next t → Inv t) ∧ (∀ bytes, s.load bytes = .ok t → Inv t) ∧ (∀ k p, Inv (s.setKeyState k p))

/-! ### Which instruction writes what -/

/-- Only the instructions R100's table names write a piece of state: the general registers by their destination, VF by the flag
writers too; the display by 00E0 and DXYN, memory by FX33 and FX55, the stack by 2NNN, `SP` by 2NNN and 00EE, `I` by ANNN, FX1E
and FX29, `DT` by FX15, `ST` by FX18, the key wait by FX0A, the fault by the instructions that have a check, the keys by none
(10_state.md R100, R103, R105, R110 to R113; 60_exceptions.md R1011). `PC` is written by every cycle (R107), so no clause is about
it; the key-wait poll is no instruction (`WaitingCyclePolls`). The clause on `draws` is about no piece of R100's: the counter is the
model's own (log entry 4, DESIGN CHOICE), and that only CXNN and FX0A advance it follows from R118, where each of the two draws
belongs to one of them (the spec's decisions D12, D30). -/
def Obligations.OnlyNamedInstructionsWrite : Prop :=
  ∀ (i : Instr) (s t : State), exec i s = .next t →
    (∀ r, t.v r ≠ s.v r → destinations i r ∨ (r = regVF ∧ WritesFlag i)) ∧
    (t.disp ≠ s.disp → i = .cls ∨ ∃ x y n, i = .drw x y n) ∧
    (t.mem ≠ s.mem → ∃ x, i = .ldBVx x ∨ i = .ldMemVx x) ∧
    (t.stack ≠ s.stack → ∃ nnn, i = .call nnn) ∧
    (t.sp ≠ s.sp → i = .ret ∨ ∃ nnn, i = .call nnn) ∧
    (t.i ≠ s.i → (∃ nnn, i = .ldI nnn) ∨ ∃ x, i = .addIVx x ∨ i = .ldFVx x) ∧
    (t.dt ≠ s.dt → ∃ x, i = .ldDTVx x) ∧
    (t.st ≠ s.st → ∃ x, i = .ldSTVx x) ∧
    (t.wait ≠ s.wait → ∃ x, i = .ldVxK x) ∧
    (t.fault ≠ s.fault →
      i = .ret ∨ (∃ nnn, i = .call nnn) ∨ (∃ x y n, i = .drw x y n) ∨
      ∃ x, i = .skp x ∨ i = .sknp x ∨ i = .ldBVx x ∨ i = .ldMemVx x ∨ i = .ldVxMem x) ∧
    (t.draws ≠ s.draws → ∃ x, i = .ldVxK x ∨ ∃ nn, i = .rnd x nn) ∧
    t.keys = s.keys

/-- A cycle never decrements a timer: `DT` changes only by FX15 and `ST` only by FX18, each to a register's value; the host's
`load` and `setKeyState` leave both (40_cycle.md R413). -/
def Obligations.TimersWrittenOnlyByTransfers : Prop :=
  (∀ s t : State, step s = .next t →
    (t.dt ≠ s.dt → ∃ x, decode (fetchedWord s) = .ok (.ldDTVx x) ∧ t.dt = s.v x) ∧
    (t.st ≠ s.st → ∃ x, decode (fetchedWord s) = .ok (.ldSTVx x) ∧ t.st = s.v x)) ∧
  (∀ (s t : State) (bytes : List Byte), s.load bytes = .ok t → t.dt = s.dt ∧ t.st = s.st) ∧
  (∀ (s : State) (k : Nibble) (p : Bool), (s.setKeyState k p).dt = s.dt ∧ (s.setKeyState k p).st = s.st)

/-- The keys are constant in a cycle and in an update; `setKeyState` sets the named key and changes nothing else (10_state.md
R113, R120; 40_cycle.md R412). -/
def Obligations.KeysChangeOnlyByHost : Prop :=
  (∀ s t : State, step s = .next t → t.keys = s.keys) ∧
  (∀ (n : Nat) (s t : State), s.update n = .next t → t.keys = s.keys) ∧
  (∀ (s : State) (k : Nibble) (p : Bool), (s.setKeyState k p).key k = p ∧ Frame s (s.setKeyState k p) (· = .key k))

/-- VF is overwritten with 0 or 1 by every flag-writing instruction that completes, and written by no other but as an ordinary
destination (10_state.md R103, R104). That it is 0 or 1 where VF is itself the destination too rests on the spec's decision D6
(log entry 11). -/
def Obligations.VFWrittenOnlyAsFlagOrDestination : Prop :=
  ∀ (i : Instr) (s t : State), exec i s = .next t →
    (WritesFlag i → s.fault = none → t.fault = none → t.v regVF = 0 ∨ t.v regVF = 1) ∧
    (¬ WritesFlag i → ¬ destinations i regVF → t.v regVF = s.v regVF)

/-- No instruction reads `ST`: another value in it changes nothing else (10_state.md R111). -/
def Obligations.SoundTimerIsNotRead : Prop :=
  ∀ (i : Instr) (s t : State) (v : Byte), exec i s = .next t →
    ∃ t', exec i { s with st := v } = .next t' ∧ ∀ c : Component, c ≠ .st → c.same t t'

/-! ### Control transfer -/

/-- 1NNN and BNNN complete in every state: `PC` is the target, not reduced, and nothing else changes (41_control.md R500,
R507, R508). -/
def Obligations.JumpsSetPC : Prop :=
  ∀ (s : State) (nnn : Addr),
    (∃ t, exec (.jp nnn) s = .next t ∧ t.pc.toNat = nnn.toNat ∧ Frame s t (· = .pc)) ∧
    (∃ t, exec (.jpV0 nnn) s = .next t ∧ t.pc.toNat = (s.v 0x0).toNat + nnn.toNat ∧ Frame s t (· = .pc))

/-- Push and pop as 2NNN and 00EE do them: with room, the return address A + 2 goes to `stack[SP]` and `SP` goes up; not
empty, `SP` goes down and the entry there is the target; full or empty, the error is raised and neither `SP` nor an entry
changes (10_state.md R109; 60_exceptions.md R1002, R1003; the addresses and the frames are 41_control.md R501, R502). That a raise
changes nothing but `fault` is R1008, the spec's decision D14 (log entry 7), and that the popped value is not checked its decision
D31 (log entry 13). -/
def Obligations.CallPushesReturnPops : Prop :=
  ∀ (s : State) (nnn : Addr),
    (∀ k : Fin 16, s.sp.val = k.val →
      ∃ t, exec (.call nnn) s = .next t ∧ t.stack.get k = s.pc + 2 ∧ t.sp.val = k.val + 1 ∧ t.pc.toNat = nnn.toNat ∧
        Frame s t (fun c => c = .pc ∨ c = .sp ∨ c = .stackEntry k)) ∧
    (s.sp.val = 16 →
      ∃ t r, exec (.call nnn) s = .next t ∧ t.fault = some r ∧ r.kind = .stackOverflow ∧
        Frame s t (· = .fault)) ∧
    (∀ k : Fin 16, s.sp.val = k.val + 1 →
      ∃ t, exec .ret s = .next t ∧ t.pc = s.stack.get k ∧ t.sp.val = k.val ∧ Frame s t (fun c => c = .pc ∨ c = .sp)) ∧
    (s.sp.val = 0 →
      ∃ t r, exec .ret s = .next t ∧ t.fault = some r ∧ r.kind = .stackUnderflow ∧ Frame s t (· = .fault))

/-- A call and then a return come back to the instruction after the call, with `SP` as it was (41_control.md R502, which the
spec derives). -/
def Obligations.CallThenReturnComesBack : Prop :=
  ∀ (s : State) (nnn : Addr) (k : Fin 16), s.sp.val = k.val →
    ∃ t u, exec (.call nnn) s = .next t ∧ exec .ret t = .next u ∧ u.pc = s.pc + 2 ∧
      Frame s u (fun c => c = .pc ∨ c = .stackEntry k)

/-- The compare-and-skip instructions complete in every state: `PC` is A + 4 when the condition holds and A + 2 otherwise, and
nothing else changes (41_control.md R503 to R506, R509). -/
def Obligations.ComparesSkipOneWord : Prop :=
  ∀ (s : State) (x y : Nibble) (nn : Byte),
    (∃ t, exec (.seImm x nn) s = .next t ∧ t.pc = (if s.v x = nn then s.pc + 4 else s.pc + 2) ∧ Frame s t (· = .pc)) ∧
    (∃ t, exec (.sneImm x nn) s = .next t ∧ t.pc = (if s.v x = nn then s.pc + 2 else s.pc + 4) ∧ Frame s t (· = .pc)) ∧
    (∃ t, exec (.seReg x y) s = .next t ∧ t.pc = (if s.v x = s.v y then s.pc + 4 else s.pc + 2) ∧ Frame s t (· = .pc)) ∧
    (∃ t, exec (.sneReg x y) s = .next t ∧ t.pc = (if s.v x = s.v y then s.pc + 2 else s.pc + 4) ∧ Frame s t (· = .pc))

/-! ### Register loads and ALU -/

/-- 6XNN, 8XY0 and FX07 complete in every state: `Vx` gets the value and nothing else but `PC` changes (42_alu.md R600, R602;
44_keypad_timers.md R802). -/
def Obligations.LoadsSetRegister : Prop :=
  ∀ (s : State) (x y : Nibble) (nn : Byte),
    (∃ t, exec (.ldImm x nn) s = .next t ∧ t.v x = nn ∧ t.pc = s.pc + 2 ∧ Frame s t (fun c => c = .pc ∨ c = .v x)) ∧
    (∃ t, exec (.ldReg x y) s = .next t ∧ t.v x = s.v y ∧ t.pc = s.pc + 2 ∧ Frame s t (fun c => c = .pc ∨ c = .v x)) ∧
    (∃ t, exec (.ldVxDT x) s = .next t ∧ t.v x = s.dt ∧ t.pc = s.pc + 2 ∧ Frame s t (fun c => c = .pc ∨ c = .v x))

/-- 7XNN completes in every state: the sum modulo 256, and no flag (42_alu.md R601, R606). -/
def Obligations.AddImmediateWraps : Prop :=
  ∀ (s : State) (x : Nibble) (nn : Byte),
    ∃ t, exec (.addImm x nn) s = .next t ∧ (t.v x).toNat = ((s.v x).toNat + nn.toNat) % 256 ∧ t.pc = s.pc + 2 ∧
      Frame s t (fun c => c = .pc ∨ c = .v x)

/-- 8XY1, 8XY2 and 8XY3 complete in every state, bit by bit, and no flag is written (42_alu.md R603, R604, R605). -/
def Obligations.LogicIsBitwise : Prop :=
  ∀ (s : State) (x y : Nibble),
    (∃ t, exec (.orReg x y) s = .next t ∧ (∀ k, (t.v x).getLsbD k = ((s.v x).getLsbD k || (s.v y).getLsbD k)) ∧
      t.pc = s.pc + 2 ∧ Frame s t (fun c => c = .pc ∨ c = .v x)) ∧
    (∃ t, exec (.andReg x y) s = .next t ∧ (∀ k, (t.v x).getLsbD k = ((s.v x).getLsbD k && (s.v y).getLsbD k)) ∧
      t.pc = s.pc + 2 ∧ Frame s t (fun c => c = .pc ∨ c = .v x)) ∧
    (∃ t, exec (.xorReg x y) s = .next t ∧ (∀ k, (t.v x).getLsbD k = ((s.v x).getLsbD k ^^ (s.v y).getLsbD k)) ∧
      t.pc = s.pc + 2 ∧ Frame s t (fun c => c = .pc ∨ c = .v x))

/-- The carry law: 8XY4 sets VF to 1 iff `a + b > 255` and gives `(a + b) mod 256`; 7XNN writes no carry (42_alu.md R607). The
result register is not VF here; `FlagWinsOverResult` covers `x = 0xF`. -/
def Obligations.CarryLaw : Prop :=
  ∀ (s : State) (x y : Nibble) (nn : Byte), x ≠ regVF →
    (∃ t, exec (.addReg x y) s = .next t ∧
      t.v regVF = (if (s.v x).toNat + (s.v y).toNat > 255 then 1 else 0) ∧
      (t.v x).toNat = ((s.v x).toNat + (s.v y).toNat) % 256 ∧
      t.pc = s.pc + 2 ∧ Frame s t (fun c => c = .pc ∨ c = .v x ∨ c = .v regVF)) ∧
    (∃ t, exec (.addImm x nn) s = .next t ∧ t.v regVF = s.v regVF)

/-- The borrow law: 8XY5 on `(Vx, Vy)` and 8XY7 on `(Vy, Vx)` set VF to 1 iff `a ≥ b` and give `(a - b) mod 256` (42_alu.md
R608). The result register is not VF here; `FlagWinsOverResult` covers `x = 0xF`. -/
def Obligations.BorrowLaw : Prop :=
  ∀ (s : State) (x y : Nibble), x ≠ regVF →
    (∃ t, exec (.subReg x y) s = .next t ∧
      t.v regVF = (if (s.v x).toNat ≥ (s.v y).toNat then 1 else 0) ∧
      (t.v x).toNat = ((s.v x).toNat + 256 - (s.v y).toNat) % 256 ∧
      t.pc = s.pc + 2 ∧ Frame s t (fun c => c = .pc ∨ c = .v x ∨ c = .v regVF)) ∧
    (∃ t, exec (.subnReg x y) s = .next t ∧
      t.v regVF = (if (s.v y).toNat ≥ (s.v x).toNat then 1 else 0) ∧
      (t.v x).toNat = ((s.v y).toNat + 256 - (s.v x).toNat) % 256 ∧
      t.pc = s.pc + 2 ∧ Frame s t (fun c => c = .pc ∨ c = .v x ∨ c = .v regVF))

/-- 8XY6 and 8XYE shift `Vx` by one, VF gets the bit shifted out, and `y` has no part in it (42_alu.md R612, R614; 30_encoding.md
R306, the spec's decision D9). The result register is not VF here; `FlagWinsOverResult` covers `x = 0xF`. -/
def Obligations.ShiftsMoveOneBit : Prop :=
  ∀ (s : State) (x y : Nibble), x ≠ regVF →
    (∃ t, exec (.shr x y) s = .next t ∧ (t.v x).toNat = (s.v x).toNat / 2 ∧ (t.v regVF).toNat = (s.v x).toNat % 2 ∧
      t.pc = s.pc + 2 ∧ Frame s t (fun c => c = .pc ∨ c = .v x ∨ c = .v regVF) ∧ ∀ y', exec (.shr x y') s = .next t) ∧
    (∃ t, exec (.shl x y) s = .next t ∧ (t.v x).toNat = (s.v x).toNat * 2 % 256 ∧
      (t.v regVF).toNat = (s.v x).toNat / 128 ∧ t.pc = s.pc + 2 ∧
      Frame s t (fun c => c = .pc ∨ c = .v x ∨ c = .v regVF) ∧ ∀ y', exec (.shl x y') s = .next t)

/-- With VF as the destination the flag wins and the result is lost, the operands being those of before (42_alu.md R609; the
order is the spec's decision D6). -/
def Obligations.FlagWinsOverResult : Prop :=
  ∀ (s : State) (y : Nibble),
    (∃ t, exec (.addReg regVF y) s = .next t ∧ t.v regVF = (if (s.v regVF).toNat + (s.v y).toNat > 255 then 1 else 0) ∧
      t.pc = s.pc + 2 ∧ Frame s t (fun c => c = .pc ∨ c = .v regVF)) ∧
    (∃ t, exec (.subReg regVF y) s = .next t ∧ t.v regVF = (if (s.v regVF).toNat ≥ (s.v y).toNat then 1 else 0) ∧
      t.pc = s.pc + 2 ∧ Frame s t (fun c => c = .pc ∨ c = .v regVF)) ∧
    (∃ t, exec (.subnReg regVF y) s = .next t ∧ t.v regVF = (if (s.v y).toNat ≥ (s.v regVF).toNat then 1 else 0) ∧
      t.pc = s.pc + 2 ∧ Frame s t (fun c => c = .pc ∨ c = .v regVF)) ∧
    (∃ t, exec (.shr regVF y) s = .next t ∧ (t.v regVF).toNat = (s.v regVF).toNat % 2 ∧
      t.pc = s.pc + 2 ∧ Frame s t (fun c => c = .pc ∨ c = .v regVF)) ∧
    (∃ t, exec (.shl regVF y) s = .next t ∧ (t.v regVF).toNat = (s.v regVF).toNat / 128 ∧
      t.pc = s.pc + 2 ∧ Frame s t (fun c => c = .pc ∨ c = .v regVF))

/-- CXNN completes in every state: `Vx` is the drawn byte under the mask, a new draw each time, no flag; the mask 0 gives 0
whatever the draw (42_alu.md R615). `Config.rng` is a free value: the statement holds for every random source. -/
def Obligations.RandomIsMaskedDraw : Prop :=
  ∀ (s : State) (x : Nibble) (nn : Byte),
    ∃ t, exec (.rnd x nn) s = .next t ∧ (∀ k, (t.v x).getLsbD k = ((Config.rng s.draws).getLsbD k && nn.getLsbD k)) ∧
      (nn = 0 → t.v x = 0) ∧ t.draws = s.draws + 1 ∧ t.pc = s.pc + 2 ∧
      Frame s t (fun c => c = .pc ∨ c = .v x ∨ c = .draws)

/-! ### Display -/

/-- 00E0 completes in every state: every pixel is clear, VF and all else as before (43_display.md R700). -/
def Obligations.ClearScreenClears : Prop :=
  ∀ s : State, ∃ t, exec .cls s = .next t ∧ (∀ x y, t.getPixel x y = false) ∧ t.pc = s.pc + 2 ∧
    Frame s t (fun c => c = .pc ∨ ∃ x y, c = .pixel x y)

/-- DXYN with its rows in range (or none) completes: exactly the pixels the sprite covers are toggled, each once, wrapping in
both directions; VF is 1 if a covered pixel was set and 0 otherwise; `I`, memory and all else are as before (43_display.md R702,
R703, R704; the bit order is general knowledge in the spec, G3, and the latching its decision D7). -/
def Obligations.DrawTogglesCoveredPixels : Prop :=
  ∀ (s : State) (x y n : Nibble), n = 0 ∨ InRange s n.toNat →
    ∃ t, exec (.drw x y n) s = .next t ∧
      (∀ px py, SpriteCovers s x y n px py → t.getPixel px py = !s.getPixel px py) ∧
      (∀ px py, ¬ SpriteCovers s x y n px py → t.getPixel px py = s.getPixel px py) ∧
      (t.v regVF = 0 ∨ t.v regVF = 1) ∧
      (t.v regVF = 1 ↔ ∃ px py, SpriteCovers s x y n px py ∧ s.getPixel px py = true) ∧
      t.pc = s.pc + 2 ∧ Frame s t (fun c => c = .pc ∨ c = .v regVF ∨ ∃ px py, c = .pixel px py)

/-- Drawing the same sprite twice at the same coordinates restores every pixel, and the second draw reports a collision exactly
when the sprite covers a pixel that was clear before the first (43_display.md R705, which the spec derives; C2). -/
def Obligations.DrawTwiceRestores : Prop :=
  ∀ (s t : State) (x y n : Nibble), n = 0 ∨ InRange s n.toNat → exec (.drw x y n) s = .next t →
    t.v x = s.v x → t.v y = s.v y →
    ∃ u, exec (.drw x y n) t = .next u ∧ (∀ px py, u.getPixel px py = s.getPixel px py) ∧
      (u.v regVF = 1 ↔ ∃ px py, SpriteCovers s x y n px py ∧ s.getPixel px py = false)

/-! ### Keypad, key wait, timers -/

/-- EX9E and EXA1 complete when `Vx` is a key number: A + 4 or A + 2 by that key, and nothing else changes; above 15 the error is
recorded and nothing else changes (44_keypad_timers.md R800, R801, R807; the error is the spec's decision D10). -/
def Obligations.KeySkipsTestOneKey : Prop :=
  ∀ (s : State) (x : Nibble),
    (∀ k : Nibble, (s.v x).toNat = k.toNat →
      (∃ t, exec (.skp x) s = .next t ∧ t.pc = (if s.key k = true then s.pc + 4 else s.pc + 2) ∧ Frame s t (· = .pc)) ∧
      (∃ t, exec (.sknp x) s = .next t ∧ t.pc = (if s.key k = true then s.pc + 2 else s.pc + 4) ∧ Frame s t (· = .pc))) ∧
    (0xF < (s.v x).toNat →
      exec (.skp x) s = .next (failed s (.keyIndexOutOfRange (s.v x)) (some (encode (.skp x)))) ∧
      exec (.sknp x) s = .next (failed s (.keyIndexOutOfRange (s.v x)) (some (encode (.sknp x)))))

/-- FX15 and FX18 complete in every state: the timer gets `Vx` and nothing else but `PC` changes (44_keypad_timers.md R805,
R806). -/
def Obligations.TimersSetFromRegister : Prop :=
  ∀ (s : State) (x : Nibble),
    (∃ t, exec (.ldDTVx x) s = .next t ∧ t.dt = s.v x ∧ t.pc = s.pc + 2 ∧ Frame s t (fun c => c = .pc ∨ c = .dt)) ∧
    (∃ t, exec (.ldSTVx x) s = .next t ∧ t.st = s.v x ∧ t.pc = s.pc + 2 ∧ Frame s t (fun c => c = .pc ∨ c = .st))

/-- FX0A with some key down captures a down key and waits for it, `PC` at A + 2; with none down it changes nothing, so it runs
again (44_keypad_timers.md R803, R808). Which down key is a free value (D12): the statement holds for every choice. -/
def Obligations.KeyWaitCapturesOrStalls : Prop :=
  ∀ (s : State) (x : Nibble),
    ((∃ k, s.key k = true) →
      ∃ t k, exec (.ldVxK x) s = .next t ∧ s.key k = true ∧ t.wait = .waiting x k ∧ t.pc = s.pc + 2 ∧
        Frame s t (fun c => c = .pc ∨ c = .wait ∨ c = .draws)) ∧
    ((∀ k, s.key k = false) → exec (.ldVxK x) s = .next s)

/-- With one key down there is no choice: FX0A captures it (44_keypad_timers.md R803). -/
def Obligations.OnlyKeyDownIsCaptured : Prop :=
  ∀ (s : State) (x k : Nibble), s.key k = true → (∀ j, s.key j = true → j = k) →
    ∃ t, exec (.ldVxK x) s = .next t ∧ t.wait = .waiting x k

/-- A waiting block polls: released, the key number goes to the register and the block is back to normal; held, nothing changes.
`PC` does not move, nothing is fetched or read from memory, and nothing fails (40_cycle.md R406; 44_keypad_timers.md R804). That the
committing cycle does not fetch either is the spec's decision D13 (log entry 13). -/
def Obligations.WaitingCyclePolls : Prop :=
  ∀ (s : State) (r k : Nibble), s.fault = none → s.wait = .waiting r k →
    (s.key k = true → step s = .next s) ∧
    (s.key k = false →
      ∃ t, step s = .next t ∧ (t.v r).toNat = k.toNat ∧ t.wait = .normal ∧ Frame s t (fun c => c = .v r ∨ c = .wait) ∧
        ∀ m : Memory, step { s with mem := m } = .next { t with mem := m })

/-- While the captured key is held, an update only decays the timers, however many cycles it has (40_cycle.md R409;
60_exceptions.md R1019). -/
def Obligations.HeldKeyUpdateOnlyDecays : Prop :=
  ∀ (s : State) (r k : Nibble) (n : Nat), s.fault = none → s.wait = .waiting r k → s.key k = true →
    s.update n = .next s.timerDecay

/-! ### Index register and memory transfers -/

/-- ANNN and FX29 complete in every state: `I` is the address, unmasked, and nothing else but `PC` changes (45_index_memory.md
R900, R902). -/
def Obligations.IndexLoads : Prop :=
  ∀ (s : State) (x : Nibble) (nnn : Addr),
    (∃ t, exec (.ldI nnn) s = .next t ∧ t.i.toNat = nnn.toNat ∧ t.pc = s.pc + 2 ∧
      Frame s t (fun c => c = .pc ∨ c = .i)) ∧
    (∃ t, exec (.ldFVx x) s = .next t ∧ t.i.toNat = (s.v x).toNat * 5 ∧ t.pc = s.pc + 2 ∧
      Frame s t (fun c => c = .pc ∨ c = .i))

/-- FX1E completes in every state: the 16-bit sum, and VF is the carry out of bit 15; with `x = 0xF` the old VF is added
(45_index_memory.md R901; C8; the order for `x = 0xF` is the spec's decision D6). -/
def Obligations.IndexAddCarries : Prop :=
  ∀ (s : State) (x : Nibble),
    ∃ t, exec (.addIVx x) s = .next t ∧ t.i.toNat = (s.i.toNat + (s.v x).toNat) % 65536 ∧
      t.v regVF = (if s.i.toNat + (s.v x).toNat > 0xFFFF then 1 else 0) ∧ t.pc = s.pc + 2 ∧
      Frame s t (fun c => c = .pc ∨ c = .i ∨ c = .v regVF)

/-- FX33 with `I + 2 ≤ 0xFFF` completes: hundreds, tens and units go to `I`, `I + 1`, `I + 2`, and nothing else but `PC` changes
(45_index_memory.md R903). -/
def Obligations.BcdStoresDigits : Prop :=
  ∀ (s : State) (x : Nibble), s.mem.wf → InRange s 3 →
    ∃ t, exec (.ldBVx x) s = .next t ∧
      (t.mem.read s.i.toNat).toNat = (s.v x).toNat / 100 ∧
      (t.mem.read (s.i.toNat + 1)).toNat = (s.v x).toNat / 10 % 10 ∧
      (t.mem.read (s.i.toNat + 2)).toNat = (s.v x).toNat % 10 ∧
      t.pc = s.pc + 2 ∧ Frame s t (fun c => c = .pc ∨ ∃ k < 3, c = .mem (s.i.toNat + k))

/-- FX55 with `I + x ≤ 0xFFF` completes: `V0..Vx` go to `I..I + x`, and nothing else but `PC` changes, `I` included
(45_index_memory.md R904; the unchanged `I` is the spec's decision D11). -/
def Obligations.StoreRegistersToMemory : Prop :=
  ∀ (s : State) (x : Nibble), s.mem.wf → InRange s (x.toNat + 1) →
    ∃ t, exec (.ldMemVx x) s = .next t ∧ (∀ r : Nibble, r.toNat ≤ x.toNat → t.mem.read (s.i.toNat + r.toNat) = s.v r) ∧
      t.pc = s.pc + 2 ∧ Frame s t (fun c => c = .pc ∨ ∃ k ≤ x.toNat, c = .mem (s.i.toNat + k))

/-- FX65 with `I + x ≤ 0xFFF` completes: `V0..Vx` come from `I..I + x`, and nothing else but `PC` changes, `I` included
(45_index_memory.md R905; the unchanged `I` is the spec's decision D11). -/
def Obligations.LoadRegistersFromMemory : Prop :=
  ∀ (s : State) (x : Nibble), InRange s (x.toNat + 1) →
    ∃ t, exec (.ldVxMem x) s = .next t ∧ (∀ r : Nibble, r.toNat ≤ x.toNat → t.v r = s.mem.read (s.i.toNat + r.toNat)) ∧
      t.pc = s.pc + 2 ∧ Frame s t (fun c => c = .pc ∨ ∃ r : Nibble, r.toNat ≤ x.toNat ∧ c = .v r)

/-- Stored registers come back: FX55, then any change of the registers, then FX65 with the same `x`, gives `V0..Vx` the values
stored (45_index_memory.md R904, R905). FX65 reads from the `I` that FX55 left, unchanged by the spec's decision D11 (log entry
13). -/
def Obligations.StoreThenLoadRestores : Prop :=
  ∀ (s t : State) (x : Nibble) (vs : Vector Byte 16), s.mem.wf → InRange s (x.toNat + 1) →
    exec (.ldMemVx x) s = .next t →
    ∃ u, exec (.ldVxMem x) { t with vregs := vs } = .next u ∧ ∀ r : Nibble, r.toNat ≤ x.toNat → u.v r = s.v r

/-- A transfer that would pass 0xFFF records `MemoryOutOfBounds` at the first failing address, `max(I, 0x1000)`, and changes
nothing else: no byte, register or pixel (20_memory.md R205; 43_display.md R702; 45_index_memory.md R903, R904, R905). The record is
R1007's, the spec's decision D19 (log entry 12), and that nothing else changes R1008's, its decision D14 (log entry 7). -/
def Obligations.TransfersOutOfRangeFault : Prop :=
  ∀ (s : State) (x y n : Nibble),
    (n ≠ 0 → ¬ InRange s n.toNat →
      exec (.drw x y n) s =
        .next (failed s (.memoryOutOfBounds (max s.i.toNat 0x1000)) (some (encode (.drw x y n))))) ∧
    (¬ InRange s 3 →
      exec (.ldBVx x) s = .next (failed s (.memoryOutOfBounds (max s.i.toNat 0x1000)) (some (encode (.ldBVx x))))) ∧
    (¬ InRange s (x.toNat + 1) →
      exec (.ldMemVx x) s = .next (failed s (.memoryOutOfBounds (max s.i.toNat 0x1000)) (some (encode (.ldMemVx x)))) ∧
      exec (.ldVxMem x) s = .next (failed s (.memoryOutOfBounds (max s.i.toNat 0x1000)) (some (encode (.ldVxMem x)))))

/-- Self-modifying code takes effect at once: after FX55, FX33 or the host's `load`, the next fetch forms its word of the bytes
stored, byte by byte, and of memory as it was for a byte not stored over (20_memory.md R213; 70_reset_and_hazards.md R1105 item 4,
which the spec derives; its decision D21, log entry 13). -/
def Obligations.StoredBytesAreFetchedNext : Prop :=
  ∀ (s t : State) (x : Nibble) (bytes : List Byte), s.mem.wf → Fetchable t →
    (InRange s (x.toNat + 1) → exec (.ldMemVx x) s = .next t →
      t.fetch = .ok (wordOfBytes (overlaid s.mem s.i.toNat (regsThrough s x) t.pc.toNat)
        (overlaid s.mem s.i.toNat (regsThrough s x) (t.pc.toNat + 1)))) ∧
    (InRange s 3 → exec (.ldBVx x) s = .next t →
      t.fetch = .ok (wordOfBytes (overlaid s.mem s.i.toNat (decimalDigits (s.v x)) t.pc.toNat)
        (overlaid s.mem s.i.toNat (decimalDigits (s.v x)) (t.pc.toNat + 1)))) ∧
    (s.load bytes = .ok t →
      t.fetch = .ok (wordOfBytes (overlaid s.mem 0x200 bytes t.pc.toNat) (overlaid s.mem 0x200 bytes (t.pc.toNat + 1))))

/-! ### Updates and ports -/

/-- The timer decay takes one from each timer above 0, independently, never passes below 0, and changes nothing else (40_cycle.md
R408). -/
def Obligations.DecayTakesOneFromEachTimer : Prop :=
  ∀ s : State,
    s.timerDecay.dt.toNat = (if s.dt.toNat > 0 then s.dt.toNat - 1 else 0) ∧
    s.timerDecay.st.toNat = (if s.st.toNat > 0 then s.st.toNat - 1 else 0) ∧
    Frame s s.timerDecay (fun c => c = .dt ∨ c = .st)

/-- An update is its cycles and then one decay, whatever the count; a cycle that fails is the last one, the cycles before it keep
their effects, and there is no decay (40_cycle.md R407, R409, R410). The skipped decay is the spec's decision D15 (log entry 12), the
open count its D16; a count of 0 is the model's (log entry 15). -/
def Obligations.UpdateRunsCyclesThenDecays : Prop :=
  ∀ (n : Nat) (s : State), s.fault = none →
    ∃ t, s.update n = .next t ∧
      ((t.fault = none ∧ ∃ u, Sys2Proof.core.run n s = .next u ∧ u.fault = none ∧ t = u.timerDecay) ∨
       (t.fault ≠ none ∧ ∃ k < n, ∃ u, Sys2Proof.core.run k s = .next u ∧ u.fault = none ∧ step u = .next t))

/-- A parked block stays parked: each cycle leaves the state as it is, and an update only decays the timers
(70_reset_and_hazards.md R1107, the spec's decision D26). -/
def Obligations.ParkedBlockStays : Prop :=
  ∀ (h : Word) (s : State) (n : Nat), Parked h s →
    step s = .next s ∧ s.update n = .next s.timerDecay ∧ Parked h s.timerDecay

/-- The end of a run is final: faulted or parked, no step and no update leads out of it (70_reset_and_hazards.md R1107, the spec's
decision D26; 60_exceptions.md R1009). -/
def Obligations.EndedRunStaysEnded : Prop :=
  ∀ (s t : State) (n : Nat), Ended s → step s = .next t ∨ s.update n = .next t → Ended t

/-- `load` of at most 3584 bytes puts the image at 0x200 and changes nothing else; a longer image is refused with its length,
without a next state (20_memory.md R210; 60_exceptions.md R1005). -/
def Obligations.LoadPlacesImage : Prop :=
  ∀ (s : State) (bytes : List Byte), s.mem.wf →
    (bytes.length ≤ 3584 →
      ∃ t, s.load bytes = .ok t ∧ (∀ k < bytes.length, t.mem.read (0x200 + k) = bytes.getD k 0) ∧
        Frame s t (fun c => ∃ k < bytes.length, c = .mem (0x200 + k))) ∧
    (3584 < bytes.length → s.load bytes = .error (.romTooLarge bytes.length))

/-- A word placed at the fetch address is the very next instruction run, from every state with canonical memory (20_memory.md
R206, R213; 40_cycle.md R400; placing is the model's own operation, log entry 14). -/
def Obligations.PlacedWordRunsNext : Prop :=
  ∀ (s : State) (w : Nat) (i : Instr), s.mem.wf → decodeTableWord 16 w = some i →
    step (s.withFetchWord 16 w) = exec i (s.withFetchWord 16 w)

/-- The error port hands out the recorded kind, address and word, with the code and the info the kind has (60_exceptions.md R1000,
R1007; the codes and the record are the spec's decision D19, log entry 12). `RomTooLarge` is never recorded by the block (R1005),
but its code and info are the kind's. -/
def Obligations.ErrorPortGivesCodeAndInfo : Prop :=
  ∀ s : State,
    (s.fault = none → s.errorPort = none) ∧
    ∀ r, s.fault = some r → ∃ code info, s.errorPort = some (r.kind, code, r.pc, r.op, info) ∧
      (∀ w, r.kind = .unknownOpcode w → code = 1 ∧ info = some w.toNat) ∧
      (r.kind = .stackOverflow → code = 2 ∧ info = none) ∧
      (r.kind = .stackUnderflow → code = 3 ∧ info = none) ∧
      (∀ n, r.kind = .romTooLarge n → code = 4 ∧ info = some n) ∧
      (∀ a, r.kind = .memoryOutOfBounds a → code = 5 ∧ info = some a) ∧
      (∀ v, r.kind = .keyIndexOutOfRange v → code = 6 ∧ info = some v.toNat)
end

