-- ==== Sys2Proof/Laws/Decode.lean ====
section
/-! SUPPORT. The fields of encoded words, and the rows of the opcode map (30_encoding.md R300, R301, R303). -/

namespace Sys2Proof.Laws

/-- Every operand fits its field, by its type. -/
theorem fitsField_toNat {w : Nat} (b : BitVec w) : fitsField w b.toNat = true := by
  simp [fitsField, b.isLt]

theorem wellFormed_all (i : Instr) : i.WellFormed = true := by
  cases i <;> simp [Instr.WellFormed, fitsField_toNat]

/-- Two words with the same four nibbles are the same word. -/
theorem word_ext {op op' : Word} (hc : opClass op = opClass op') (hx : opX op = opX op') (hy : opY op = opY op')
    (hn : opN op = opN op') : op = op' := by
  have h1 := congrArg BitVec.toNat hc
  have h2 := congrArg BitVec.toNat hx
  have h3 := congrArg BitVec.toNat hy
  have h4 := congrArg BitVec.toNat hn
  simp only [opClass, opX, opY, opN, BitVec.extractLsb'_toNat, Nat.shiftRight_eq_div_pow] at h1 h2 h3 h4
  apply BitVec.eq_of_toNat_eq
  have := op.isLt
  have := op'.isLt
  omega

theorem toNat_wordCXYN (c x y n : Nibble) :
    (wordCXYN c x y n).toNat = ((c.toNat * 16 + x.toNat) * 16 + y.toNat) * 16 + n.toNat := by
  have hx := x.isLt
  have hy := y.isLt
  have hn := n.isLt
  simp only [wordCXYN, BitVec.toNat_append]
  rw [← Nat.shiftLeft_add_eq_or_of_lt hx, ← Nat.shiftLeft_add_eq_or_of_lt hy, ← Nat.shiftLeft_add_eq_or_of_lt hn]
  simp only [Nat.shiftLeft_eq]

theorem toNat_wordCXNN (c x : Nibble) (nn : Byte) :
    (wordCXNN c x nn).toNat = (c.toNat * 16 + x.toNat) * 256 + nn.toNat := by
  have hx := x.isLt
  have hn := nn.isLt
  simp only [wordCXNN, BitVec.toNat_append]
  rw [← Nat.shiftLeft_add_eq_or_of_lt hx, ← Nat.shiftLeft_add_eq_or_of_lt hn]
  simp only [Nat.shiftLeft_eq]

theorem toNat_wordCNNN (c : Nibble) (nnn : Addr) : (wordCNNN c nnn).toNat = c.toNat * 4096 + nnn.toNat := by
  have hn := nnn.isLt
  simp only [wordCNNN, BitVec.toNat_append]
  rw [← Nat.shiftLeft_add_eq_or_of_lt hn]
  simp only [Nat.shiftLeft_eq]

/-- Each field as a number (R301). -/
theorem toNat_fields (op : Word) :
    (opClass op).toNat = op.toNat / 4096 ∧ (opX op).toNat = op.toNat / 256 % 16 ∧
    (opY op).toNat = op.toNat / 16 % 16 ∧ (opN op).toNat = op.toNat % 16 ∧
    (opNN op).toNat = op.toNat % 256 ∧ (opNNN op).toNat = op.toNat % 4096 := by
  have := op.isLt
  simp only [opClass, opX, opY, opN, opNN, opNNN, BitVec.extractLsb'_toNat, Nat.shiftRight_eq_div_pow]
  refine ⟨?_, ?_, ?_, ?_, ?_, ?_⟩ <;> first | omega | simp

@[simp] theorem opClass_wordCXYN (c x y n : Nibble) : opClass (wordCXYN c x y n) = c := by
  apply BitVec.eq_of_toNat_eq
  rw [(toNat_fields _).1, toNat_wordCXYN]
  omega
@[simp] theorem opX_wordCXYN (c x y n : Nibble) : opX (wordCXYN c x y n) = x := by
  apply BitVec.eq_of_toNat_eq
  rw [(toNat_fields _).2.1, toNat_wordCXYN]
  omega
@[simp] theorem opY_wordCXYN (c x y n : Nibble) : opY (wordCXYN c x y n) = y := by
  apply BitVec.eq_of_toNat_eq
  rw [(toNat_fields _).2.2.1, toNat_wordCXYN]
  omega
@[simp] theorem opN_wordCXYN (c x y n : Nibble) : opN (wordCXYN c x y n) = n := by
  apply BitVec.eq_of_toNat_eq
  rw [(toNat_fields _).2.2.2.1, toNat_wordCXYN]
  omega
@[simp] theorem opClass_wordCXNN (c x : Nibble) (nn : Byte) : opClass (wordCXNN c x nn) = c := by
  apply BitVec.eq_of_toNat_eq
  rw [(toNat_fields _).1, toNat_wordCXNN]
  omega
@[simp] theorem opX_wordCXNN (c x : Nibble) (nn : Byte) : opX (wordCXNN c x nn) = x := by
  apply BitVec.eq_of_toNat_eq
  rw [(toNat_fields _).2.1, toNat_wordCXNN]
  omega
@[simp] theorem opNN_wordCXNN (c x : Nibble) (nn : Byte) : opNN (wordCXNN c x nn) = nn := by
  apply BitVec.eq_of_toNat_eq
  rw [(toNat_fields _).2.2.2.2.1, toNat_wordCXNN]
  omega
@[simp] theorem opClass_wordCNNN (c : Nibble) (nnn : Addr) : opClass (wordCNNN c nnn) = c := by
  apply BitVec.eq_of_toNat_eq
  rw [(toNat_fields _).1, toNat_wordCNNN]
  omega
@[simp] theorem opNNN_wordCNNN (c : Nibble) (nnn : Addr) : opNNN (wordCNNN c nnn) = nnn := by
  apply BitVec.eq_of_toNat_eq
  rw [(toNat_fields _).2.2.2.2.2, toNat_wordCNNN]
  omega

/-- The fields of a masked word are the masked fields. -/
theorem fields_and (a b : Word) :
    opClass (a &&& b) = opClass a &&& opClass b ∧ opX (a &&& b) = opX a &&& opX b ∧
    opY (a &&& b) = opY a &&& opY b ∧ opN (a &&& b) = opN a &&& opN b := by
  simp [opClass, opX, opY, opN, BitVec.extractLsb'_and]

/-- A word selects a row exactly when its masked nibbles are the row's (R303). -/
theorem selectsRow_iff (op mask bits : Word) :
    selectsRow op (mask, bits) = true ↔
      opClass op &&& opClass mask = opClass bits ∧ opX op &&& opX mask = opX bits ∧
      opY op &&& opY mask = opY bits ∧ opN op &&& opN mask = opN bits := by
  obtain ⟨hc, hx, hy, hn⟩ := fields_and op mask
  rw [← hc, ← hx, ← hy, ← hn]
  simp only [selectsRow, beq_iff_eq]
  exact ⟨fun e => by simp [e], fun ⟨h1, h2, h3, h4⟩ => word_ext h1 h2 h3 h4⟩

/-- The two nibbles of `nn` (R301: `nn = y:n`). -/
theorem opY_opN_wordCXNN (c x : Nibble) (nn : Byte) :
    opY (wordCXNN c x nn) = nn.extractLsb' 4 4 ∧ opN (wordCXNN c x nn) = nn.extractLsb' 0 4 := by
  have h := toNat_fields (wordCXNN c x nn)
  constructor
  · apply BitVec.eq_of_toNat_eq
    rw [h.2.2.1, toNat_wordCXNN, BitVec.extractLsb'_toNat, Nat.shiftRight_eq_div_pow]
    omega
  · apply BitVec.eq_of_toNat_eq
    rw [h.2.2.2.1, toNat_wordCXNN, BitVec.extractLsb'_toNat, Nat.shiftRight_eq_div_pow]
    simp
    omega

/-- A fetched pair of bytes is the word they came from (R206). -/
@[simp] theorem wordOfBytes_high_low (op : Word) : wordOfBytes (highByte op) (lowByte op) = op := by
  apply BitVec.eq_of_toNat_eq
  have h := op.isLt
  have hl := (lowByte op).isLt
  simp only [wordOfBytes, BitVec.toNat_append]
  rw [← Nat.shiftLeft_add_eq_or_of_lt hl]
  simp only [highByte, lowByte, BitVec.extractLsb'_toNat, Nat.shiftRight_eq_div_pow, Nat.shiftLeft_eq]
  omega

end Sys2Proof.Laws
end

