-- ==== Sys2Proof/Laws/State.lean ====
section
/-! SUPPORT. One lemma per field per update of the state, so that no proof unfolds a record update. -/

namespace Sys2Proof.Machine

/-! ### The fetch's advance (R403) -/

@[simp] theorem State.advance_mem (s : State) : (s.advance).mem = s.mem := rfl
@[simp] theorem State.advance_vregs (s : State) : (s.advance).vregs = s.vregs := rfl
@[simp] theorem State.advance_i (s : State) : (s.advance).i = s.i := rfl
@[simp] theorem State.advance_stack (s : State) : (s.advance).stack = s.stack := rfl
@[simp] theorem State.advance_sp (s : State) : (s.advance).sp = s.sp := rfl
@[simp] theorem State.advance_dt (s : State) : (s.advance).dt = s.dt := rfl
@[simp] theorem State.advance_st (s : State) : (s.advance).st = s.st := rfl
@[simp] theorem State.advance_disp (s : State) : (s.advance).disp = s.disp := rfl
@[simp] theorem State.advance_keys (s : State) : (s.advance).keys = s.keys := rfl
@[simp] theorem State.advance_wait (s : State) : (s.advance).wait = s.wait := rfl
@[simp] theorem State.advance_fault (s : State) : (s.advance).fault = s.fault := rfl
@[simp] theorem State.advance_draws (s : State) : (s.advance).draws = s.draws := rfl
@[simp] theorem State.advance_pc (s : State) : (s.advance).pc = s.pc + 2 := rfl
@[simp] theorem State.advance_v (s : State) (r : Nibble) : (s.advance).v r = s.v r := rfl
@[simp] theorem State.advance_key (s : State) (j : Nibble) : (s.advance).key j = s.key j := rfl

/-! ### A jump (R508) -/

@[simp] theorem State.jump_mem (s : State) (a : Word) : (s.jump a).mem = s.mem := rfl
@[simp] theorem State.jump_vregs (s : State) (a : Word) : (s.jump a).vregs = s.vregs := rfl
@[simp] theorem State.jump_i (s : State) (a : Word) : (s.jump a).i = s.i := rfl
@[simp] theorem State.jump_stack (s : State) (a : Word) : (s.jump a).stack = s.stack := rfl
@[simp] theorem State.jump_sp (s : State) (a : Word) : (s.jump a).sp = s.sp := rfl
@[simp] theorem State.jump_dt (s : State) (a : Word) : (s.jump a).dt = s.dt := rfl
@[simp] theorem State.jump_st (s : State) (a : Word) : (s.jump a).st = s.st := rfl
@[simp] theorem State.jump_disp (s : State) (a : Word) : (s.jump a).disp = s.disp := rfl
@[simp] theorem State.jump_keys (s : State) (a : Word) : (s.jump a).keys = s.keys := rfl
@[simp] theorem State.jump_wait (s : State) (a : Word) : (s.jump a).wait = s.wait := rfl
@[simp] theorem State.jump_fault (s : State) (a : Word) : (s.jump a).fault = s.fault := rfl
@[simp] theorem State.jump_draws (s : State) (a : Word) : (s.jump a).draws = s.draws := rfl
@[simp] theorem State.jump_pc (s : State) (a : Word) : (s.jump a).pc = a := rfl
@[simp] theorem State.jump_v (s : State) (a : Word) (r : Nibble) : (s.jump a).v r = s.v r := rfl
@[simp] theorem State.jump_key (s : State) (a : Word) (j : Nibble) : (s.jump a).key j = s.key j := rfl

/-! ### Writing `I` -/

@[simp] theorem State.setI_mem (s : State) (a : Word) : (s.setI a).mem = s.mem := rfl
@[simp] theorem State.setI_vregs (s : State) (a : Word) : (s.setI a).vregs = s.vregs := rfl
@[simp] theorem State.setI_pc (s : State) (a : Word) : (s.setI a).pc = s.pc := rfl
@[simp] theorem State.setI_stack (s : State) (a : Word) : (s.setI a).stack = s.stack := rfl
@[simp] theorem State.setI_sp (s : State) (a : Word) : (s.setI a).sp = s.sp := rfl
@[simp] theorem State.setI_dt (s : State) (a : Word) : (s.setI a).dt = s.dt := rfl
@[simp] theorem State.setI_st (s : State) (a : Word) : (s.setI a).st = s.st := rfl
@[simp] theorem State.setI_disp (s : State) (a : Word) : (s.setI a).disp = s.disp := rfl
@[simp] theorem State.setI_keys (s : State) (a : Word) : (s.setI a).keys = s.keys := rfl
@[simp] theorem State.setI_wait (s : State) (a : Word) : (s.setI a).wait = s.wait := rfl
@[simp] theorem State.setI_fault (s : State) (a : Word) : (s.setI a).fault = s.fault := rfl
@[simp] theorem State.setI_draws (s : State) (a : Word) : (s.setI a).draws = s.draws := rfl
@[simp] theorem State.setI_i (s : State) (a : Word) : (s.setI a).i = a := rfl
@[simp] theorem State.setI_v (s : State) (a : Word) (r : Nibble) : (s.setI a).v r = s.v r := rfl
@[simp] theorem State.setI_key (s : State) (a : Word) (j : Nibble) : (s.setI a).key j = s.key j := rfl

/-! ### Writing a general register (R101) -/

@[simp] theorem State.setV_mem (s : State) (x : Nibble) (b : Byte) : (s.setV x b).mem = s.mem := rfl
@[simp] theorem State.setV_i (s : State) (x : Nibble) (b : Byte) : (s.setV x b).i = s.i := rfl
@[simp] theorem State.setV_pc (s : State) (x : Nibble) (b : Byte) : (s.setV x b).pc = s.pc := rfl
@[simp] theorem State.setV_stack (s : State) (x : Nibble) (b : Byte) : (s.setV x b).stack = s.stack := rfl
@[simp] theorem State.setV_sp (s : State) (x : Nibble) (b : Byte) : (s.setV x b).sp = s.sp := rfl
@[simp] theorem State.setV_dt (s : State) (x : Nibble) (b : Byte) : (s.setV x b).dt = s.dt := rfl
@[simp] theorem State.setV_st (s : State) (x : Nibble) (b : Byte) : (s.setV x b).st = s.st := rfl
@[simp] theorem State.setV_disp (s : State) (x : Nibble) (b : Byte) : (s.setV x b).disp = s.disp := rfl
@[simp] theorem State.setV_keys (s : State) (x : Nibble) (b : Byte) : (s.setV x b).keys = s.keys := rfl
@[simp] theorem State.setV_wait (s : State) (x : Nibble) (b : Byte) : (s.setV x b).wait = s.wait := rfl
@[simp] theorem State.setV_fault (s : State) (x : Nibble) (b : Byte) : (s.setV x b).fault = s.fault := rfl
@[simp] theorem State.setV_draws (s : State) (x : Nibble) (b : Byte) : (s.setV x b).draws = s.draws := rfl
@[simp] theorem State.setV_vregs (s : State) (x : Nibble) (b : Byte) : (s.setV x b).vregs = s.vregs.set x.toNat b x.isLt := rfl
@[simp] theorem State.setV_key (s : State) (x : Nibble) (b : Byte) (j : Nibble) : (s.setV x b).key j = s.key j := rfl

/-! ### Writing the flag (R104) -/

@[simp] theorem State.setVF_mem (s : State) (f : Bool) : (s.setVF f).mem = s.mem := rfl
@[simp] theorem State.setVF_i (s : State) (f : Bool) : (s.setVF f).i = s.i := rfl
@[simp] theorem State.setVF_pc (s : State) (f : Bool) : (s.setVF f).pc = s.pc := rfl
@[simp] theorem State.setVF_stack (s : State) (f : Bool) : (s.setVF f).stack = s.stack := rfl
@[simp] theorem State.setVF_sp (s : State) (f : Bool) : (s.setVF f).sp = s.sp := rfl
@[simp] theorem State.setVF_dt (s : State) (f : Bool) : (s.setVF f).dt = s.dt := rfl
@[simp] theorem State.setVF_st (s : State) (f : Bool) : (s.setVF f).st = s.st := rfl
@[simp] theorem State.setVF_disp (s : State) (f : Bool) : (s.setVF f).disp = s.disp := rfl
@[simp] theorem State.setVF_keys (s : State) (f : Bool) : (s.setVF f).keys = s.keys := rfl
@[simp] theorem State.setVF_wait (s : State) (f : Bool) : (s.setVF f).wait = s.wait := rfl
@[simp] theorem State.setVF_fault (s : State) (f : Bool) : (s.setVF f).fault = s.fault := rfl
@[simp] theorem State.setVF_draws (s : State) (f : Bool) : (s.setVF f).draws = s.draws := rfl
@[simp] theorem State.setVF_key (s : State) (f : Bool) (j : Nibble) : (s.setVF f).key j = s.key j := rfl

/-! ### Result, then flag (R609) -/

@[simp] theorem State.setResultAndFlag_mem (s : State) (x : Nibble) (b : Byte) (f : Bool) : (s.setResultAndFlag x b f).mem = s.mem := rfl
@[simp] theorem State.setResultAndFlag_i (s : State) (x : Nibble) (b : Byte) (f : Bool) : (s.setResultAndFlag x b f).i = s.i := rfl
@[simp] theorem State.setResultAndFlag_pc (s : State) (x : Nibble) (b : Byte) (f : Bool) : (s.setResultAndFlag x b f).pc = s.pc := rfl
@[simp] theorem State.setResultAndFlag_stack (s : State) (x : Nibble) (b : Byte) (f : Bool) : (s.setResultAndFlag x b f).stack = s.stack := rfl
@[simp] theorem State.setResultAndFlag_sp (s : State) (x : Nibble) (b : Byte) (f : Bool) : (s.setResultAndFlag x b f).sp = s.sp := rfl
@[simp] theorem State.setResultAndFlag_dt (s : State) (x : Nibble) (b : Byte) (f : Bool) : (s.setResultAndFlag x b f).dt = s.dt := rfl
@[simp] theorem State.setResultAndFlag_st (s : State) (x : Nibble) (b : Byte) (f : Bool) : (s.setResultAndFlag x b f).st = s.st := rfl
@[simp] theorem State.setResultAndFlag_disp (s : State) (x : Nibble) (b : Byte) (f : Bool) : (s.setResultAndFlag x b f).disp = s.disp := rfl
@[simp] theorem State.setResultAndFlag_keys (s : State) (x : Nibble) (b : Byte) (f : Bool) : (s.setResultAndFlag x b f).keys = s.keys := rfl
@[simp] theorem State.setResultAndFlag_wait (s : State) (x : Nibble) (b : Byte) (f : Bool) : (s.setResultAndFlag x b f).wait = s.wait := rfl
@[simp] theorem State.setResultAndFlag_fault (s : State) (x : Nibble) (b : Byte) (f : Bool) : (s.setResultAndFlag x b f).fault = s.fault := rfl
@[simp] theorem State.setResultAndFlag_draws (s : State) (x : Nibble) (b : Byte) (f : Bool) : (s.setResultAndFlag x b f).draws = s.draws := rfl
@[simp] theorem State.setResultAndFlag_key (s : State) (x : Nibble) (b : Byte) (f : Bool) (j : Nibble) : (s.setResultAndFlag x b f).key j = s.key j := rfl

/-! ### A draw taken (R118) -/

@[simp] theorem State.drawn_mem (s : State) : (s.drawn).mem = s.mem := rfl
@[simp] theorem State.drawn_vregs (s : State) : (s.drawn).vregs = s.vregs := rfl
@[simp] theorem State.drawn_i (s : State) : (s.drawn).i = s.i := rfl
@[simp] theorem State.drawn_pc (s : State) : (s.drawn).pc = s.pc := rfl
@[simp] theorem State.drawn_stack (s : State) : (s.drawn).stack = s.stack := rfl
@[simp] theorem State.drawn_sp (s : State) : (s.drawn).sp = s.sp := rfl
@[simp] theorem State.drawn_dt (s : State) : (s.drawn).dt = s.dt := rfl
@[simp] theorem State.drawn_st (s : State) : (s.drawn).st = s.st := rfl
@[simp] theorem State.drawn_disp (s : State) : (s.drawn).disp = s.disp := rfl
@[simp] theorem State.drawn_keys (s : State) : (s.drawn).keys = s.keys := rfl
@[simp] theorem State.drawn_wait (s : State) : (s.drawn).wait = s.wait := rfl
@[simp] theorem State.drawn_fault (s : State) : (s.drawn).fault = s.fault := rfl
@[simp] theorem State.drawn_draws (s : State) : (s.drawn).draws = s.draws + 1 := rfl
@[simp] theorem State.drawn_v (s : State) (r : Nibble) : (s.drawn).v r = s.v r := rfl
@[simp] theorem State.drawn_key (s : State) (j : Nibble) : (s.drawn).key j = s.key j := rfl

/-! ### The timer decay (R408) -/

@[simp] theorem State.timerDecay_mem (s : State) : (s.timerDecay).mem = s.mem := rfl
@[simp] theorem State.timerDecay_vregs (s : State) : (s.timerDecay).vregs = s.vregs := rfl
@[simp] theorem State.timerDecay_i (s : State) : (s.timerDecay).i = s.i := rfl
@[simp] theorem State.timerDecay_pc (s : State) : (s.timerDecay).pc = s.pc := rfl
@[simp] theorem State.timerDecay_stack (s : State) : (s.timerDecay).stack = s.stack := rfl
@[simp] theorem State.timerDecay_sp (s : State) : (s.timerDecay).sp = s.sp := rfl
@[simp] theorem State.timerDecay_disp (s : State) : (s.timerDecay).disp = s.disp := rfl
@[simp] theorem State.timerDecay_keys (s : State) : (s.timerDecay).keys = s.keys := rfl
@[simp] theorem State.timerDecay_wait (s : State) : (s.timerDecay).wait = s.wait := rfl
@[simp] theorem State.timerDecay_fault (s : State) : (s.timerDecay).fault = s.fault := rfl
@[simp] theorem State.timerDecay_draws (s : State) : (s.timerDecay).draws = s.draws := rfl
@[simp] theorem State.timerDecay_dt (s : State) : (s.timerDecay).dt = decayed s.dt := rfl
@[simp] theorem State.timerDecay_st (s : State) : (s.timerDecay).st = decayed s.st := rfl
@[simp] theorem State.timerDecay_v (s : State) (r : Nibble) : (s.timerDecay).v r = s.v r := rfl
@[simp] theorem State.timerDecay_key (s : State) (j : Nibble) : (s.timerDecay).key j = s.key j := rfl

/-! ### The keypad port (R120) -/

@[simp] theorem State.setKeyState_mem (s : State) (k : Nibble) (p : Bool) : (s.setKeyState k p).mem = s.mem := rfl
@[simp] theorem State.setKeyState_vregs (s : State) (k : Nibble) (p : Bool) : (s.setKeyState k p).vregs = s.vregs := rfl
@[simp] theorem State.setKeyState_i (s : State) (k : Nibble) (p : Bool) : (s.setKeyState k p).i = s.i := rfl
@[simp] theorem State.setKeyState_pc (s : State) (k : Nibble) (p : Bool) : (s.setKeyState k p).pc = s.pc := rfl
@[simp] theorem State.setKeyState_stack (s : State) (k : Nibble) (p : Bool) : (s.setKeyState k p).stack = s.stack := rfl
@[simp] theorem State.setKeyState_sp (s : State) (k : Nibble) (p : Bool) : (s.setKeyState k p).sp = s.sp := rfl
@[simp] theorem State.setKeyState_dt (s : State) (k : Nibble) (p : Bool) : (s.setKeyState k p).dt = s.dt := rfl
@[simp] theorem State.setKeyState_st (s : State) (k : Nibble) (p : Bool) : (s.setKeyState k p).st = s.st := rfl
@[simp] theorem State.setKeyState_disp (s : State) (k : Nibble) (p : Bool) : (s.setKeyState k p).disp = s.disp := rfl
@[simp] theorem State.setKeyState_wait (s : State) (k : Nibble) (p : Bool) : (s.setKeyState k p).wait = s.wait := rfl
@[simp] theorem State.setKeyState_fault (s : State) (k : Nibble) (p : Bool) : (s.setKeyState k p).fault = s.fault := rfl
@[simp] theorem State.setKeyState_draws (s : State) (k : Nibble) (p : Bool) : (s.setKeyState k p).draws = s.draws := rfl
@[simp] theorem State.setKeyState_keys (s : State) (k : Nibble) (p : Bool) : (s.setKeyState k p).keys = s.keys.set k.toNat p k.isLt := rfl
@[simp] theorem State.setKeyState_v (s : State) (k : Nibble) (p : Bool) (r : Nibble) : (s.setKeyState k p).v r = s.v r := rfl

/-! ### A skip (R509): only `PC` can change -/

@[simp] theorem State.skipIf_mem (s : State) (c : Bool) : (s.skipIf c).mem = s.mem := by cases c <;> rfl
@[simp] theorem State.skipIf_vregs (s : State) (c : Bool) : (s.skipIf c).vregs = s.vregs := by cases c <;> rfl
@[simp] theorem State.skipIf_i (s : State) (c : Bool) : (s.skipIf c).i = s.i := by cases c <;> rfl
@[simp] theorem State.skipIf_stack (s : State) (c : Bool) : (s.skipIf c).stack = s.stack := by cases c <;> rfl
@[simp] theorem State.skipIf_sp (s : State) (c : Bool) : (s.skipIf c).sp = s.sp := by cases c <;> rfl
@[simp] theorem State.skipIf_dt (s : State) (c : Bool) : (s.skipIf c).dt = s.dt := by cases c <;> rfl
@[simp] theorem State.skipIf_st (s : State) (c : Bool) : (s.skipIf c).st = s.st := by cases c <;> rfl
@[simp] theorem State.skipIf_disp (s : State) (c : Bool) : (s.skipIf c).disp = s.disp := by cases c <;> rfl
@[simp] theorem State.skipIf_keys (s : State) (c : Bool) : (s.skipIf c).keys = s.keys := by cases c <;> rfl
@[simp] theorem State.skipIf_wait (s : State) (c : Bool) : (s.skipIf c).wait = s.wait := by cases c <;> rfl
@[simp] theorem State.skipIf_fault (s : State) (c : Bool) : (s.skipIf c).fault = s.fault := by cases c <;> rfl
@[simp] theorem State.skipIf_draws (s : State) (c : Bool) : (s.skipIf c).draws = s.draws := by cases c <;> rfl
@[simp] theorem State.skipIf_pc (s : State) (c : Bool) : (s.skipIf c).pc = if c then s.pc + 2 else s.pc := by cases c <;> rfl
@[simp] theorem State.skipIf_v (s : State) (c : Bool) (r : Nibble) : (s.skipIf c).v r = s.v r := by cases c <;> rfl
@[simp] theorem State.skipIf_key (s : State) (c : Bool) (j : Nibble) : (s.skipIf c).key j = s.key j := by cases c <;> rfl

/-! ### Loading consecutive registers (R905): only the registers change -/

@[simp] theorem State.setVs_mem (s : State) (k : Nat) (bs : List Byte) : (s.setVs k bs).mem = s.mem := by
  induction bs generalizing s k with
  | nil => rfl
  | cons b rest ih => simp [State.setVs, ih]
@[simp] theorem State.setVs_i (s : State) (k : Nat) (bs : List Byte) : (s.setVs k bs).i = s.i := by
  induction bs generalizing s k with
  | nil => rfl
  | cons b rest ih => simp [State.setVs, ih]
@[simp] theorem State.setVs_pc (s : State) (k : Nat) (bs : List Byte) : (s.setVs k bs).pc = s.pc := by
  induction bs generalizing s k with
  | nil => rfl
  | cons b rest ih => simp [State.setVs, ih]
@[simp] theorem State.setVs_stack (s : State) (k : Nat) (bs : List Byte) : (s.setVs k bs).stack = s.stack := by
  induction bs generalizing s k with
  | nil => rfl
  | cons b rest ih => simp [State.setVs, ih]
@[simp] theorem State.setVs_sp (s : State) (k : Nat) (bs : List Byte) : (s.setVs k bs).sp = s.sp := by
  induction bs generalizing s k with
  | nil => rfl
  | cons b rest ih => simp [State.setVs, ih]
@[simp] theorem State.setVs_dt (s : State) (k : Nat) (bs : List Byte) : (s.setVs k bs).dt = s.dt := by
  induction bs generalizing s k with
  | nil => rfl
  | cons b rest ih => simp [State.setVs, ih]
@[simp] theorem State.setVs_st (s : State) (k : Nat) (bs : List Byte) : (s.setVs k bs).st = s.st := by
  induction bs generalizing s k with
  | nil => rfl
  | cons b rest ih => simp [State.setVs, ih]
@[simp] theorem State.setVs_disp (s : State) (k : Nat) (bs : List Byte) : (s.setVs k bs).disp = s.disp := by
  induction bs generalizing s k with
  | nil => rfl
  | cons b rest ih => simp [State.setVs, ih]
@[simp] theorem State.setVs_keys (s : State) (k : Nat) (bs : List Byte) : (s.setVs k bs).keys = s.keys := by
  induction bs generalizing s k with
  | nil => rfl
  | cons b rest ih => simp [State.setVs, ih]
@[simp] theorem State.setVs_wait (s : State) (k : Nat) (bs : List Byte) : (s.setVs k bs).wait = s.wait := by
  induction bs generalizing s k with
  | nil => rfl
  | cons b rest ih => simp [State.setVs, ih]
@[simp] theorem State.setVs_fault (s : State) (k : Nat) (bs : List Byte) : (s.setVs k bs).fault = s.fault := by
  induction bs generalizing s k with
  | nil => rfl
  | cons b rest ih => simp [State.setVs, ih]
@[simp] theorem State.setVs_draws (s : State) (k : Nat) (bs : List Byte) : (s.setVs k bs).draws = s.draws := by
  induction bs generalizing s k with
  | nil => rfl
  | cons b rest ih => simp [State.setVs, ih]
@[simp] theorem State.setVs_key (s : State) (k : Nat) (bs : List Byte) (j : Nibble) : (s.setVs k bs).key j = s.key j := by
  simp [State.key]

/-! ### Construction and reset (R1100, R1101) -/

@[simp] theorem State.construct_mem (font : Font) : (State.construct font).mem = Memory.withFont font := rfl
@[simp] theorem State.construct_draws (font : Font) : (State.construct font).draws = 0 := rfl
@[simp] theorem State.construct_vregs (font : Font) : (State.construct font).vregs = State.reset.vregs := rfl
@[simp] theorem State.construct_i (font : Font) : (State.construct font).i = State.reset.i := rfl
@[simp] theorem State.construct_pc (font : Font) : (State.construct font).pc = State.reset.pc := rfl
@[simp] theorem State.construct_stack (font : Font) : (State.construct font).stack = State.reset.stack := rfl
@[simp] theorem State.construct_sp (font : Font) : (State.construct font).sp = State.reset.sp := rfl
@[simp] theorem State.construct_dt (font : Font) : (State.construct font).dt = State.reset.dt := rfl
@[simp] theorem State.construct_st (font : Font) : (State.construct font).st = State.reset.st := rfl
@[simp] theorem State.construct_disp (font : Font) : (State.construct font).disp = State.reset.disp := rfl
@[simp] theorem State.construct_keys (font : Font) : (State.construct font).keys = State.reset.keys := rfl
@[simp] theorem State.construct_wait (font : Font) : (State.construct font).wait = State.reset.wait := rfl
@[simp] theorem State.construct_fault (font : Font) : (State.construct font).fault = State.reset.fault := rfl
@[simp] theorem State.hostReset_mem (font : Font) (s : State) : (s.hostReset font).mem = Memory.withFont font := rfl
@[simp] theorem State.hostReset_draws (font : Font) (s : State) : (s.hostReset font).draws = s.draws := rfl
@[simp] theorem State.hostReset_vregs (font : Font) (s : State) : (s.hostReset font).vregs = State.reset.vregs := rfl
@[simp] theorem State.hostReset_i (font : Font) (s : State) : (s.hostReset font).i = State.reset.i := rfl
@[simp] theorem State.hostReset_pc (font : Font) (s : State) : (s.hostReset font).pc = State.reset.pc := rfl
@[simp] theorem State.hostReset_stack (font : Font) (s : State) : (s.hostReset font).stack = State.reset.stack := rfl
@[simp] theorem State.hostReset_sp (font : Font) (s : State) : (s.hostReset font).sp = State.reset.sp := rfl
@[simp] theorem State.hostReset_dt (font : Font) (s : State) : (s.hostReset font).dt = State.reset.dt := rfl
@[simp] theorem State.hostReset_st (font : Font) (s : State) : (s.hostReset font).st = State.reset.st := rfl
@[simp] theorem State.hostReset_disp (font : Font) (s : State) : (s.hostReset font).disp = State.reset.disp := rfl
@[simp] theorem State.hostReset_keys (font : Font) (s : State) : (s.hostReset font).keys = State.reset.keys := rfl
@[simp] theorem State.hostReset_wait (font : Font) (s : State) : (s.hostReset font).wait = State.reset.wait := rfl
@[simp] theorem State.hostReset_fault (font : Font) (s : State) : (s.hostReset font).fault = State.reset.fault := rfl

end Sys2Proof.Machine
end

