-- ==== Sys2Proof/Laws/Memory.lean ====
section
/-! SUPPORT. The laws of memory (20_memory.md R202, R204, R205): every operation keeps the canonical form, a read after a
write gives the value written, and other addresses are left alone. -/

namespace Sys2Proof.Machine

theorem Memory.wf_nil : Memory.wf [] := by simp [Memory.wf]

/-- Reset memory is in the canonical form. -/
theorem State.reset_mem_wf : State.reset.mem.wf := Memory.wf_nil

/-- A write touches no other address; it needs no canonical form. -/
theorem Memory.read_write_ne (m : Memory) {a a' : Nat} (b : Byte) (h : a' ≠ a) :
    (m.write a b).read a' = m.read a' := by
  have h' : ¬ a = a' := fun e => h e.symm
  induction m with
  | nil =>
    unfold Memory.write
    split <;> simp [Memory.read, h']
  | cons c rest ih =>
    obtain ⟨k, v⟩ := c
    unfold Memory.write
    split
    · split <;> simp [Memory.read, h']
    · split
      · next e => split <;> simp [Memory.read, h', ← e]
      · simp [Memory.read, ih]

/-- Below the first listed address nothing is listed. -/
theorem Memory.read_of_lt {m : Memory} {a : Nat} (h : ∀ c ∈ m, a < c.1) : m.read a = Memory.unlisted a := by
  induction m with
  | nil => rfl
  | cons c rest ih =>
    have hne : ¬ c.1 = a := by
      have := h c (by simp)
      omega
    simpa [Memory.read, hne] using ih (fun d hd => h d (by simp [hd]))

/-- A read after a write to the same address gives the byte written. -/
theorem Memory.read_write_self {m : Memory} (hm : m.wf) (a : Nat) (b : Byte) : (m.write a b).read a = b := by
  induction m with
  | nil =>
    unfold Memory.write
    split
    · next e => simp [Memory.read, e]
    · simp [Memory.read]
  | cons c rest ih =>
    obtain ⟨k, v⟩ := c
    have hs := List.pairwise_cons.mp hm.1
    have hrest : Memory.wf rest := ⟨hs.2, fun c hc => hm.2 c (by simp [hc])⟩
    unfold Memory.write
    split
    · next lt =>
      split
      · next e =>
        rw [Memory.read_of_lt, e]
        intro d hd
        rcases List.mem_cons.mp hd with rfl | hd
        · exact lt
        · exact lt.trans (hs.1 d hd)
      · simp [Memory.read]
    · split
      · next e =>
        split
        · next e' =>
          rw [Memory.read_of_lt, e']
          intro d hd
          rw [e]
          exact hs.1 d hd
        · simp [Memory.read]
      · next hne =>
        have : ¬ k = a := fun e => hne e.symm
        simpa [Memory.read, this] using ih hrest

/-- Every entry after a write is the written one or was listed. -/
theorem Memory.mem_write {m : Memory} {a : Nat} {b : Byte} {c : Host.Cell} (h : c ∈ m.write a b) :
    c ∈ m ∨ (c = (a, b) ∧ b ≠ Memory.unlisted a) := by
  induction m with
  | nil =>
    unfold Memory.write at h
    split at h
    · simp at h
    · next hne => simp at h; exact .inr ⟨h, hne⟩
  | cons d rest ih =>
    obtain ⟨k, v⟩ := d
    unfold Memory.write at h
    split at h
    · split at h
      · exact .inl h
      · next hne =>
        rcases List.mem_cons.mp h with rfl | h
        · exact .inr ⟨rfl, hne⟩
        · exact .inl h
    · split at h
      · split at h
        · exact .inl (List.mem_cons_of_mem _ h)
        · next hne =>
          rcases List.mem_cons.mp h with rfl | h
          · exact .inr ⟨rfl, hne⟩
          · exact .inl (List.mem_cons_of_mem _ h)
      · rcases List.mem_cons.mp h with rfl | h
        · exact .inl List.mem_cons_self
        · rcases ih h with h | h
          · exact .inl (List.mem_cons_of_mem _ h)
          · exact .inr h

theorem Memory.pairwise_write {m : Memory} (a : Nat) (b : Byte) (h : m.Pairwise (fun c d => c.1 < d.1)) :
    (m.write a b).Pairwise (fun c d => c.1 < d.1) := by
  induction m with
  | nil =>
    unfold Memory.write
    split <;> simp
  | cons c rest ih =>
    obtain ⟨k, v⟩ := c
    have hs := List.pairwise_cons.mp h
    unfold Memory.write
    split
    · next lt =>
      split
      · exact h
      · refine List.pairwise_cons.mpr ⟨fun d hd => ?_, h⟩
        rcases List.mem_cons.mp hd with rfl | hd
        · exact lt
        · exact lt.trans (hs.1 d hd)
    · split
      · next e =>
        split
        · exact hs.2
        · refine List.pairwise_cons.mpr ⟨fun d hd => ?_, hs.2⟩
          show a < d.1
          rw [e]
          exact hs.1 d hd
      · next nlt hne =>
        refine List.pairwise_cons.mpr ⟨fun d hd => ?_, ih hs.2⟩
        rcases Memory.mem_write hd with hd | ⟨rfl, -⟩
        · exact hs.1 d hd
        · show k < a
          omega

/-- A write in range keeps the canonical form. -/
theorem Memory.wf_write {m : Memory} (hm : m.wf) {a : Nat} (b : Byte) (ha : a < Memory.size) : (m.write a b).wf := by
  refine ⟨Memory.pairwise_write a b hm.1, fun c hc => ?_⟩
  rcases Memory.mem_write hc with h | ⟨rfl, hne⟩
  · exact hm.2 c h
  · exact ⟨ha, hne⟩

/-- Writing bytes in range keeps the canonical form. -/
theorem Memory.wf_writeBytes {m : Memory} (hm : m.wf) {base : Nat} {bs : List Byte}
    (h : base + bs.length ≤ Memory.size) : (m.writeBytes base bs).wf := by
  induction bs generalizing m base with
  | nil => exact hm
  | cons b rest ih =>
    simp only [List.length_cons] at h
    exact ih (Memory.wf_write hm b (by omega)) (by omega)

/-- Writing bytes touches no address outside theirs. -/
theorem Memory.read_writeBytes_outside (m : Memory) {base a : Nat} (bs : List Byte)
    (h : a < base ∨ base + bs.length ≤ a) : (m.writeBytes base bs).read a = m.read a := by
  induction bs generalizing m base with
  | nil => rfl
  | cons b rest ih =>
    simp only [List.length_cons] at h
    rw [Memory.writeBytes, ih _ (by omega), Memory.read_write_ne _ _ (by omega)]

/-- Each written byte reads back. -/
theorem Memory.read_writeBytes_inside {m : Memory} (hm : m.wf) {base : Nat} {bs : List Byte}
    (h : base + bs.length ≤ Memory.size) {k : Nat} (hk : k < bs.length) :
    (m.writeBytes base bs).read (base + k) = bs.getD k 0 := by
  induction bs generalizing m base k with
  | nil => simp at hk
  | cons b rest ih =>
    simp only [List.length_cons] at h hk
    have hw := Memory.wf_write hm b (a := base) (by omega)
    rw [Memory.writeBytes]
    cases k with
    | zero =>
      rw [Memory.read_writeBytes_outside _ _ (by omega)]
      simpa using Memory.read_write_self hm base b
    | succ k =>
      have e : base + (k + 1) = base + 1 + k := by omega
      rw [e, ih hw (by omega) (by omega)]
      simp

/-- Memory with any FONT is in the canonical form. -/
theorem Memory.wf_withFont (font : Font) : (Memory.withFont font).wf :=
  Memory.wf_writeBytes Memory.wf_nil (by simp [Memory.size])

/-- FONT reads back at 0x000..0x04F (R209). -/
theorem Memory.read_withFont_inside (font : Font) {k : Nat} (h : k < 80) :
    (Memory.withFont font).read k = font[k] := by
  have e := Memory.read_writeBytes_inside Memory.wf_nil (base := 0) (bs := font.toList) (by simp [Memory.size])
    (k := k) (by simpa using h)
  rw [Nat.zero_add] at e
  simpa [Memory.withFont, List.getD_eq_getElem?_getD, h] using e

/-- Above FONT memory reads 0x00 at reset (R100). -/
theorem Memory.read_withFont_outside (font : Font) {a : Nat} (h : 0x50 ≤ a) : (Memory.withFont font).read a = 0 := by
  rw [Memory.withFont, Memory.read_writeBytes_outside _ _ (.inr (by simpa using h))]
  simp [Memory.read, Memory.unlisted, Nat.not_lt.mpr h]

/-- The default FONT is what memory reads with nothing listed. -/
theorem Memory.withFont_default : Memory.withFont Config.font = [] := by decide

/-- The reset state is construction with the default FONT. -/
theorem State.construct_default : State.construct Config.font = State.reset := by
  rw [State.construct, Memory.withFont_default]
  rfl

/-- What any address reads as after writing bytes in range. -/
theorem Memory.read_writeBytes {m : Memory} (hm : m.wf) {base : Nat} {bs : List Byte}
    (h : base + bs.length ≤ Memory.size) (a : Nat) : (m.writeBytes base bs).read a = overlaid m base bs a := by
  unfold overlaid
  split
  · next hin =>
    have := Memory.read_writeBytes_inside hm h (k := a - base) (by omega)
    rwa [show base + (a - base) = a by omega] at this
  · exact Memory.read_writeBytes_outside m bs (by omega)

@[simp] theorem Memory.length_readBytes (m : Memory) (base count : Nat) : (m.readBytes base count).length = count := by
  induction count generalizing base with
  | zero => rfl
  | succ n ih => simp [Memory.readBytes, ih]

theorem Memory.getD_readBytes (m : Memory) (base : Nat) {count k : Nat} (h : k < count) :
    (m.readBytes base count).getD k 0 = m.read (base + k) := by
  induction count generalizing base k with
  | zero => omega
  | succ n ih =>
    cases k with
    | zero => simp [Memory.readBytes]
    | succ k =>
      have e : base + (k + 1) = base + 1 + k := by omega
      simp only [Memory.readBytes, List.getD_cons_succ, e]
      exact ih (base + 1) (by omega)

/-- The bounds check in closed form: out of range exactly when the last address is above 0xFFF, and then the first
failing address is `max base 0x1000` (R702, R903, R904, R905). -/
theorem firstOutOfBounds_eq (base count : Nat) :
    firstOutOfBounds base count = if count = 0 ∨ base + count ≤ 0x1000 then none else some (max base 0x1000) := by
  induction count generalizing base with
  | zero => simp [firstOutOfBounds]
  | succ n ih =>
    unfold firstOutOfBounds
    split
    · have : ¬ (n + 1 = 0 ∨ base + (n + 1) ≤ 0x1000) := by omega
      rw [if_neg this, Nat.max_eq_left (by omega)]
    · rw [ih]
      by_cases h : base + (n + 1) ≤ 0x1000
      · simp [h, show n = 0 ∨ base + 1 + n ≤ 0x1000 by omega]
      · have h1 : ¬ (n = 0 ∨ base + 1 + n ≤ 0x1000) := by omega
        have h2 : ¬ (n + 1 = 0 ∨ base + (n + 1) ≤ 0x1000) := by omega
        rw [if_neg h1, if_neg h2]
        congr 1
        omega

/-- What an access-checked effect can do: in range it happens whole; out of range only the fault is recorded. -/
theorem State.withAccess_eq (s : State) (base count : Nat) (op : Word) (body : State) :
    s.withAccess base count op body =
      if count = 0 ∨ base + count ≤ 0x1000 then .next body
      else s.raise (.memoryOutOfBounds (max base 0x1000)) (some op) := by
  unfold State.withAccess
  rw [firstOutOfBounds_eq]
  by_cases h : count = 0 ∨ base + count ≤ 0x1000
  · simp [h]
  · simp only [if_neg h]

end Sys2Proof.Machine
end

