-- ==== Sys2Proof/Laws/Registers.lean ====
section
/-! SUPPORT. Reading a general register after a write (10_state.md R101, R104), and reading back the stack, the display
and the keys: one lemma per operation. -/

namespace Sys2Proof.Machine

/-- The view of the registers determines them. -/
theorem State.vregs_ext {s t : State} (h : ∀ r, t.v r = s.v r) : t.vregs = s.vregs := by
  apply Vector.ext
  intro k hk
  have := h (BitVec.ofNat 4 k)
  simp only [State.v, BitVec.toNat_ofNat] at this
  have e : k % 2 ^ 4 = k := Nat.mod_eq_of_lt hk
  simpa only [e] using this

theorem State.v_setV (s : State) (x r : Nibble) (b : Byte) :
    (s.setV x b).v r = if r = x then b else s.v r := by
  simp only [State.v, State.setV, Vector.getElem_set]
  by_cases h : r = x
  · simp [h]
  · have : ¬ x.toNat = r.toNat := fun e => h (BitVec.eq_of_toNat_eq e.symm)
    simp [h, this]

@[simp] theorem State.v_setV_self (s : State) (x : Nibble) (b : Byte) : (s.setV x b).v x = b := by simp [State.v_setV]

theorem State.v_setV_ne (s : State) {x r : Nibble} (b : Byte) (h : r ≠ x) : (s.setV x b).v r = s.v r := by
  simp [State.v_setV, h]

theorem State.v_setVF (s : State) (f : Bool) (r : Nibble) :
    (s.setVF f).v r = if r = regVF then (if f then 1 else 0) else s.v r := by simp [State.setVF, State.v_setV]

/-- The flag wins over the result when VF is the destination (R609). -/
theorem State.v_setResultAndFlag (s : State) (x r : Nibble) (b : Byte) (f : Bool) :
    (s.setResultAndFlag x b f).v r = if r = regVF then (if f then 1 else 0) else if r = x then b else s.v r := by
  simp [State.setResultAndFlag, State.v_setVF, State.v_setV]

/-- After loading `bs` into the registers from `first` up, register `r` holds its byte, or what it held (R905). -/
theorem State.v_setVs (s : State) (first : Nat) (bs : List Byte) (r : Nibble) (h : first + bs.length ≤ 16) :
    (s.setVs first bs).v r =
      if first ≤ r.toNat ∧ r.toNat < first + bs.length then bs.getD (r.toNat - first) 0 else s.v r := by
  induction bs generalizing s first with
  | nil =>
    have : ¬ (first ≤ r.toNat ∧ r.toNat < first) := by omega
    simp [State.setVs, this]
  | cons b rest ih =>
    simp only [List.length_cons] at h
    rw [State.setVs, ih _ _ (by omega), State.v_setV]
    have hr : r = BitVec.ofNat 4 first ↔ r.toNat = first := by
      constructor
      · intro e
        rw [e]
        simp
        omega
      · intro e
        apply BitVec.eq_of_toNat_eq
        simp [e]
        omega
    by_cases h1 : r.toNat = first
    · simp [hr, h1]
    · by_cases h2 : first + 1 ≤ r.toNat ∧ r.toNat < first + 1 + rest.length
      · have e : r.toNat - first = r.toNat - (first + 1) + 1 := by omega
        have h3 : first ≤ r.toNat ∧ r.toNat < first + (b :: rest).length := by simp; omega
        rw [if_pos h2, if_pos h3, e, List.getD_cons_succ]
      · have h3 : ¬ (first ≤ r.toNat ∧ r.toNat < first + (b :: rest).length) := by simp; omega
        rw [if_neg h2, if_neg h3, if_neg (by simpa [hr] using h1)]

/-! ### Stack (R109) -/

/-- A push that answers: there was room, the entry at `SP` holds the value, the others what they held. -/
theorem State.push_spec {s s' : State} {w : Word} (h : s.push w = some s') :
    ∃ lt : s.sp.val < 16, s'.sp.val = s.sp.val + 1 ∧
      s' = { s with stack := s.stack.set s.sp.val w lt, sp := s'.sp } := by
  unfold State.push at h
  split at h
  · next lt =>
    cases h
    exact ⟨lt, rfl, rfl⟩
  · cases h

/-- A push answers exactly when the stack is not full. -/
theorem State.push_none {s : State} {w : Word} : s.push w = none ↔ s.sp.val = 16 := by
  unfold State.push
  have := s.sp.isLt
  split
  · simp; omega
  · simp; omega

/-- A push with room, as an equation. -/
theorem State.push_of_room {s : State} (w : Word) (h : s.sp.val < 16) :
    s.push w = some { s with stack := s.stack.set s.sp.val w h, sp := ⟨s.sp.val + 1, Nat.succ_lt_succ h⟩ } := by
  unfold State.push
  exact dif_pos h

/-- A pop of a non-empty stack, as an equation. -/
theorem State.pop_of_nonempty {s : State} {k : Nat} (h : s.sp.val = k + 1) (lt : k < 16) :
    s.pop = some (s.stack[k]'lt, { s with sp := ⟨k, Nat.lt_succ_of_lt lt⟩ }) := by
  unfold State.pop
  split
  · next e => simp [e] at h
  · next e =>
    have hk : _ = k := Nat.succ.inj ((congrArg Fin.val e).symm.trans h)
    subst hk
    rfl

/-- A pop that answers: the stack was not empty, `SP` is one lower, and the value is the entry there. -/
theorem State.pop_spec {s s' : State} {w : Word} (h : s.pop = some (w, s')) :
    ∃ lt : s'.sp.val < 16, s'.sp.val + 1 = s.sp.val ∧ w = s.stack[s'.sp.val]'lt ∧ s' = { s with sp := s'.sp } := by
  unfold State.pop at h
  split at h
  · cases h
  · next k lt e =>
    cases h
    exact ⟨Nat.lt_of_succ_lt_succ lt, by simp [e], rfl, rfl⟩

/-- A pop answers exactly when the stack is not empty. -/
theorem State.pop_none {s : State} : s.pop = none ↔ s.sp.val = 0 := by
  unfold State.pop
  split
  · next e => simp [e]
  · next e => simp [e]

/-! ### Display and keys -/

theorem Display.pixel_toggle (d : Display) (x x' : Fin 64) (y y' : Fin 32) :
    (d.toggle x y).pixel x' y' = if x' = x ∧ y' = y then !d.pixel x y else d.pixel x' y' := by
  simp only [Display.toggle, Display.pixel, Vector.get_eq_getElem, Vector.getElem_set, Fin.val_inj]
  by_cases hy : y = y'
  · subst hy
    by_cases hx : x = x'
    · subst hx; simp
    · have : ¬ x' = x := fun e => hx e.symm
      simp [hx, this, Fin.val_inj]
  · have : ¬ y' = y := fun e => hy e.symm
    simp [hy, this]

@[simp] theorem Display.pixel_clear (x : Fin 64) (y : Fin 32) : Display.clear.pixel x y = false := by
  simp [Display.clear, Display.pixel, Vector.get_eq_getElem]

/-- Two displays with the same pixels are the same. -/
theorem Display.ext_pixel {d d' : Display} (h : ∀ x y, d'.pixel x y = d.pixel x y) : d' = d := by
  apply Vector.ext
  intro j hj
  apply Vector.ext
  intro k hk
  have := h ⟨k, hk⟩ ⟨j, hj⟩
  simpa [Display.pixel, Vector.get_eq_getElem] using this

theorem State.key_setKeyState (s : State) (k j : Nibble) (p : Bool) :
    (s.setKeyState k p).key j = if j = k then p else s.key j := by
  simp only [State.key, State.setKeyState, Vector.getElem_set]
  by_cases h : j = k
  · simp [h]
  · have : ¬ k.toNat = j.toNat := fun e => h (BitVec.eq_of_toNat_eq e.symm)
    simp [h, this]

/-- A key is listed as down exactly when it is down (R803). -/
theorem State.mem_keysDown (s : State) (k : Nibble) : k ∈ s.keysDown ↔ s.key k = true := by
  simp only [State.keysDown, List.mem_filter, List.mem_map, List.mem_range]
  constructor
  · exact fun h => h.2
  · exact fun h => ⟨⟨k.toNat, k.isLt, by simp⟩, h⟩

/-- The chosen key is one of those given (R803). -/
theorem chooseKey_mem (k : Nibble) (rest : List Nibble) (c : Nat) : chooseKey k rest c ∈ k :: rest := by
  induction rest generalizing k c with
  | nil => simp [chooseKey]
  | cons k' rest ih =>
    cases c with
    | zero => simp [chooseKey]
    | succ c => exact List.mem_cons_of_mem _ (ih k' c)

end Sys2Proof.Machine
end

