-- ==== Sys2Proof/Laws/Frame.lean ====
section
/-! SUPPORT. The frame of each shared operation, and how frames compose. -/

namespace Sys2Proof.Machine

theorem Component.same_refl (s : State) (c : Component) : c.same s s := by cases c <;> rfl

theorem Component.same_trans {s t u : State} {c : Component} (h : c.same s t) (h' : c.same t u) : c.same s u := by
  cases c <;> exact Eq.trans h' h

theorem Frame.refl (s : State) (w : Component → Prop) : Frame s s w := fun c _ => Component.same_refl s c

/-- Two changes after each other change at most what either changes. -/
theorem Frame.trans {s t u : State} {w : Component → Prop} (h : Frame s t w) (h' : Frame t u w) : Frame s u w :=
  fun c hc => Component.same_trans (h c hc) (h' c hc)

/-- A frame may be widened. -/
theorem Frame.mono {s t : State} {w w' : Component → Prop} (h : Frame s t w) (hw : ∀ c, w c → w' c) : Frame s t w' :=
  fun c hc => h c (fun hw' => hc (hw c hw'))

theorem Frame.advance (s : State) : Frame s s.advance (· = .pc) := by
  intro c hc
  cases c <;> first | rfl | exact absurd rfl hc

theorem Frame.jump (s : State) (a : Word) : Frame s (s.jump a) (· = .pc) := by
  intro c hc
  cases c <;> first | rfl | exact absurd rfl hc

theorem Frame.skipIf (s : State) (b : Bool) : Frame s (s.skipIf b) (· = .pc) := by
  cases b
  · exact Frame.refl _ _
  · exact Frame.jump s (s.pc + 2)

theorem Frame.setI (s : State) (a : Word) : Frame s (s.setI a) (· = .i) := by
  intro c hc
  cases c <;> first | rfl | exact absurd rfl hc

theorem Frame.drawn (s : State) : Frame s s.drawn (· = .draws) := by
  intro c hc
  cases c <;> first | rfl | exact absurd rfl hc

theorem Frame.setV (s : State) (x : Nibble) (b : Byte) : Frame s (s.setV x b) (· = .v x) := by
  intro c hc
  cases c with
  | v r => exact State.v_setV_ne s b (fun e => hc (by rw [e]))
  | _ => rfl

theorem Frame.setVF (s : State) (f : Bool) : Frame s (s.setVF f) (· = .v regVF) := Frame.setV s regVF _

theorem Frame.setResultAndFlag (s : State) (x : Nibble) (b : Byte) (f : Bool) :
    Frame s (s.setResultAndFlag x b f) (fun c => c = .v x ∨ c = .v regVF) :=
  ((Frame.setV s x b).mono (fun _ => .inl)).trans ((Frame.setVF _ f).mono (fun _ => .inr))

/-- Raising an error changes nothing but `fault` (R1008). -/
theorem Frame.raise {s t : State} {kind : ErrorKind} {op : Option Word} (h : s.raise kind op = .next t) :
    Frame s t (· = .fault) := by
  cases h
  intro c hc
  cases c <;> first | rfl | exact absurd rfl hc

/-- Writing bytes to memory changes only what those addresses read as. -/
theorem Frame.writeBytes (s : State) (base : Nat) (bs : List Byte) :
    Frame s { s with mem := s.mem.writeBytes base bs } (fun c => ∃ k < bs.length, c = .mem (base + k)) := by
  intro c hc
  cases c with
  | mem a =>
    refine Memory.read_writeBytes_outside s.mem bs ?_
    by_contra h
    exact hc ⟨a - base, by omega, by congr 1; omega⟩
  | _ => rfl

/-- One step of a frame after another: what the first and the second write. -/
theorem Frame.seq {s t u : State} {w w' : Component → Prop} (h : Frame s t w) (h' : Frame t u w') :
    Frame s u (fun c => w c ∨ w' c) := (h.mono (fun _ => .inl)).trans (h'.mono (fun _ => .inr))

end Sys2Proof.Machine
end

