-- ==== Sys2Proof/Laws/PerInstr.lean ====
section
/-! SUPPORT. The per-instruction family `SelectsRow`: an instruction's word selects its own row of the opcode map by
the map's mask and match (30_encoding.md R303). -/

namespace Sys2Proof.Laws

/-- The instruction's word, under the mask of its row, is the row's match. -/
def SelectsRow.Statement (i : Instr) : Prop := selectsRow (encode i) (rowMask i, rowMatch i) = true

/-- A word of the form `c x y n` selects a row that fixes its class and `n`. -/
theorem selects_CXYN {c x y n : Nibble} {mask bits : Word} (hc : c &&& opClass mask = opClass bits)
    (hx : opX mask = 0 ∧ opX bits = 0) (hy : opY mask = 0 ∧ opY bits = 0) (hn : n &&& opN mask = opN bits) :
    selectsRow (wordCXYN c x y n) (mask, bits) = true := by
  simp [selectsRow_iff, hc, hx, hy, hn]

/-- A word of the form `c x nn` selects a row that fixes its class and, where the mask does, `nn`. -/
theorem selects_CXNN {c x : Nibble} {nn : Byte} {mask bits : Word} (hc : c &&& opClass mask = opClass bits)
    (hx : opX mask = 0 ∧ opX bits = 0) (hy : nn.extractLsb' 4 4 &&& opY mask = opY bits)
    (hn : nn.extractLsb' 0 4 &&& opN mask = opN bits) : selectsRow (wordCXNN c x nn) (mask, bits) = true := by
  have h := opY_opN_wordCXNN c x nn
  simp [selectsRow_iff, h.1, h.2, hc, hx, hy, hn]

/-- A word of the form `c nnn` selects a row that fixes its class alone. -/
theorem selects_CNNN {c : Nibble} {nnn : Addr} {mask bits : Word} (hc : c &&& opClass mask = opClass bits)
    (hx : opX mask = 0 ∧ opX bits = 0) (hy : opY mask = 0 ∧ opY bits = 0) (hn : opN mask = 0 ∧ opN bits = 0) :
    selectsRow (wordCNNN c nnn) (mask, bits) = true := by
  simp [selectsRow_iff, hc, hx, hy, hn]

theorem SelectsRow.cls : SelectsRow.Statement .cls := (by decide : selectsRow 0x00E0 (0xFFFF, 0x00E0) = true)
theorem SelectsRow.ret : SelectsRow.Statement .ret := (by decide : selectsRow 0x00EE (0xFFFF, 0x00EE) = true)
theorem SelectsRow.jp (a : Addr) : SelectsRow.Statement (.jp a) := 
  selects_CNNN (mask := 0xF000) (bits := 0x1000) (by decide) (by decide) (by decide) (by decide)
theorem SelectsRow.call (a : Addr) : SelectsRow.Statement (.call a) := 
  selects_CNNN (mask := 0xF000) (bits := 0x2000) (by decide) (by decide) (by decide) (by decide)
theorem SelectsRow.seImm (x : Nibble) (k : Byte) : SelectsRow.Statement (.seImm x k) := 
  selects_CXNN (mask := 0xF000) (bits := 0x3000) (by decide) (by decide)
    (by simp [opY]) (by simp [opN])
theorem SelectsRow.sneImm (x : Nibble) (k : Byte) : SelectsRow.Statement (.sneImm x k) := 
  selects_CXNN (mask := 0xF000) (bits := 0x4000) (by decide) (by decide)
    (by simp [opY]) (by simp [opN])
theorem SelectsRow.seReg (x : Nibble) (y : Nibble) : SelectsRow.Statement (.seReg x y) := 
  selects_CXYN (mask := 0xF00F) (bits := 0x5000) (by decide) (by decide) (by decide) (by decide)
theorem SelectsRow.ldImm (x : Nibble) (k : Byte) : SelectsRow.Statement (.ldImm x k) := 
  selects_CXNN (mask := 0xF000) (bits := 0x6000) (by decide) (by decide)
    (by simp [opY]) (by simp [opN])
theorem SelectsRow.addImm (x : Nibble) (k : Byte) : SelectsRow.Statement (.addImm x k) := 
  selects_CXNN (mask := 0xF000) (bits := 0x7000) (by decide) (by decide)
    (by simp [opY]) (by simp [opN])
theorem SelectsRow.ldReg (x : Nibble) (y : Nibble) : SelectsRow.Statement (.ldReg x y) := 
  selects_CXYN (mask := 0xF00F) (bits := 0x8000) (by decide) (by decide) (by decide) (by decide)
theorem SelectsRow.orReg (x : Nibble) (y : Nibble) : SelectsRow.Statement (.orReg x y) := 
  selects_CXYN (mask := 0xF00F) (bits := 0x8001) (by decide) (by decide) (by decide) (by decide)
theorem SelectsRow.andReg (x : Nibble) (y : Nibble) : SelectsRow.Statement (.andReg x y) := 
  selects_CXYN (mask := 0xF00F) (bits := 0x8002) (by decide) (by decide) (by decide) (by decide)
theorem SelectsRow.xorReg (x : Nibble) (y : Nibble) : SelectsRow.Statement (.xorReg x y) := 
  selects_CXYN (mask := 0xF00F) (bits := 0x8003) (by decide) (by decide) (by decide) (by decide)
theorem SelectsRow.addReg (x : Nibble) (y : Nibble) : SelectsRow.Statement (.addReg x y) := 
  selects_CXYN (mask := 0xF00F) (bits := 0x8004) (by decide) (by decide) (by decide) (by decide)
theorem SelectsRow.subReg (x : Nibble) (y : Nibble) : SelectsRow.Statement (.subReg x y) := 
  selects_CXYN (mask := 0xF00F) (bits := 0x8005) (by decide) (by decide) (by decide) (by decide)
theorem SelectsRow.shr (x : Nibble) (y : Nibble) : SelectsRow.Statement (.shr x y) := 
  selects_CXYN (mask := 0xF00F) (bits := 0x8006) (by decide) (by decide) (by decide) (by decide)
theorem SelectsRow.subnReg (x : Nibble) (y : Nibble) : SelectsRow.Statement (.subnReg x y) := 
  selects_CXYN (mask := 0xF00F) (bits := 0x8007) (by decide) (by decide) (by decide) (by decide)
theorem SelectsRow.shl (x : Nibble) (y : Nibble) : SelectsRow.Statement (.shl x y) := 
  selects_CXYN (mask := 0xF00F) (bits := 0x800E) (by decide) (by decide) (by decide) (by decide)
theorem SelectsRow.sneReg (x : Nibble) (y : Nibble) : SelectsRow.Statement (.sneReg x y) := 
  selects_CXYN (mask := 0xF00F) (bits := 0x9000) (by decide) (by decide) (by decide) (by decide)
theorem SelectsRow.ldI (a : Addr) : SelectsRow.Statement (.ldI a) := 
  selects_CNNN (mask := 0xF000) (bits := 0xA000) (by decide) (by decide) (by decide) (by decide)
theorem SelectsRow.jpV0 (a : Addr) : SelectsRow.Statement (.jpV0 a) := 
  selects_CNNN (mask := 0xF000) (bits := 0xB000) (by decide) (by decide) (by decide) (by decide)
theorem SelectsRow.rnd (x : Nibble) (k : Byte) : SelectsRow.Statement (.rnd x k) := 
  selects_CXNN (mask := 0xF000) (bits := 0xC000) (by decide) (by decide)
    (by simp [opY]) (by simp [opN])
theorem SelectsRow.drw (x : Nibble) (y : Nibble) (n : Nibble) : SelectsRow.Statement (.drw x y n) := 
  selects_CXYN (mask := 0xF000) (bits := 0xD000) (by decide) (by decide) (by decide) (by simp [opN])
theorem SelectsRow.skp (x : Nibble) : SelectsRow.Statement (.skp x) := 
  selects_CXNN (mask := 0xF0FF) (bits := 0xE09E) (by decide) (by decide) (by decide) (by decide)
theorem SelectsRow.sknp (x : Nibble) : SelectsRow.Statement (.sknp x) := 
  selects_CXNN (mask := 0xF0FF) (bits := 0xE0A1) (by decide) (by decide) (by decide) (by decide)
theorem SelectsRow.ldVxDT (x : Nibble) : SelectsRow.Statement (.ldVxDT x) := 
  selects_CXNN (mask := 0xF0FF) (bits := 0xF007) (by decide) (by decide) (by decide) (by decide)
theorem SelectsRow.ldVxK (x : Nibble) : SelectsRow.Statement (.ldVxK x) := 
  selects_CXNN (mask := 0xF0FF) (bits := 0xF00A) (by decide) (by decide) (by decide) (by decide)
theorem SelectsRow.ldDTVx (x : Nibble) : SelectsRow.Statement (.ldDTVx x) := 
  selects_CXNN (mask := 0xF0FF) (bits := 0xF015) (by decide) (by decide) (by decide) (by decide)
theorem SelectsRow.ldSTVx (x : Nibble) : SelectsRow.Statement (.ldSTVx x) := 
  selects_CXNN (mask := 0xF0FF) (bits := 0xF018) (by decide) (by decide) (by decide) (by decide)
theorem SelectsRow.addIVx (x : Nibble) : SelectsRow.Statement (.addIVx x) := 
  selects_CXNN (mask := 0xF0FF) (bits := 0xF01E) (by decide) (by decide) (by decide) (by decide)
theorem SelectsRow.ldFVx (x : Nibble) : SelectsRow.Statement (.ldFVx x) := 
  selects_CXNN (mask := 0xF0FF) (bits := 0xF029) (by decide) (by decide) (by decide) (by decide)
theorem SelectsRow.ldBVx (x : Nibble) : SelectsRow.Statement (.ldBVx x) := 
  selects_CXNN (mask := 0xF0FF) (bits := 0xF033) (by decide) (by decide) (by decide) (by decide)
theorem SelectsRow.ldMemVx (x : Nibble) : SelectsRow.Statement (.ldMemVx x) := 
  selects_CXNN (mask := 0xF0FF) (bits := 0xF055) (by decide) (by decide) (by decide) (by decide)
theorem SelectsRow.ldVxMem (x : Nibble) : SelectsRow.Statement (.ldVxMem x) := 
  selects_CXNN (mask := 0xF0FF) (bits := 0xF065) (by decide) (by decide) (by decide) (by decide)

end Sys2Proof.Laws
end

