-- ==== Sys2Proof/Laws/Step.lean ====
section
/-! SUPPORT. What a cycle can do, said once: the inversion of `exec` and of `step`, for proofs about every instruction. -/

namespace Sys2Proof.Machine

/-- Two outcomes with next states are equal exactly when the states are. -/
@[simp] theorem next_inj {s t : State} :
    (Host.Outcome.next s : Host.Outcome State Fault Refusal) = .next t ↔ s = t := by
  constructor
  · intro h
    cases h
    rfl
  · rintro rfl
    rfl

/-- Raising is recording the fault at the state's own `PC` (R1007, R1008). -/
theorem State.raise_eq (s : State) (kind : ErrorKind) (op : Option Word) : s.raise kind op = .next (failed s kind op) := rfl

/-- An instruction either records an error of the block's own with its word and changes nothing else, or completes and leaves
`fault` and the keys alone (R1008, R113). -/
theorem exec_cases {i : Instr} {s t : State} (h : exec i s = .next t) :
    (∃ kind, t = failed s kind (some (encode i)) ∧ ∀ n, kind ≠ .romTooLarge n) ∨ (t.fault = s.fault ∧ t.keys = s.keys) := by
  cases i with
  | ret =>
    simp only [exec, execRet] at h
    split at h
    · next e =>
      obtain ⟨-, -, -, hs⟩ := State.pop_spec e
      cases h
      exact .inr (by rw [hs]; exact ⟨rfl, rfl⟩)
    · cases h
      exact .inl ⟨.stackUnderflow, rfl, by simp⟩
  | call nnn =>
    simp only [exec, execCall] at h
    split at h
    · next e =>
      obtain ⟨_, -, hs⟩ := State.push_spec e
      cases h
      exact .inr (by rw [hs]; exact ⟨rfl, rfl⟩)
    · cases h
      exact .inl ⟨.stackOverflow, rfl, by simp⟩
  | skp x | sknp x =>
    simp only [exec, execSkp, execSknp] at h
    split at h
    · cases h
      exact .inr ⟨by simp, by simp⟩
    · cases h
      exact .inl ⟨.keyIndexOutOfRange (s.v x), rfl, by simp⟩
  | ldVxK x =>
    simp only [exec, execLdVxK] at h
    split at h <;> cases h <;> exact .inr ⟨rfl, rfl⟩
  | drw x y n =>
    simp only [exec, execDrw, State.withAccess_eq] at h
    split at h
    · cases h
      exact .inr ⟨rfl, rfl⟩
    · cases h
      exact .inl ⟨_, rfl, by simp⟩
  | ldBVx x | ldMemVx x =>
    simp only [exec, execLdBVx, execLdMemVx, State.withAccess_eq] at h
    split at h
    · cases h
      exact .inr ⟨rfl, rfl⟩
    · cases h
      exact .inl ⟨_, rfl, by simp⟩
  | ldVxMem x =>
    simp only [exec, execLdVxMem, State.withAccess_eq] at h
    split at h
    · cases h
      exact .inr ⟨by simp, by simp⟩
    · cases h
      exact .inl ⟨_, rfl, by simp⟩
  | seImm _ _ | sneImm _ _ | seReg _ _ | sneReg _ _ =>
    cases h
    exact .inr ⟨by simp, by simp⟩
  | _ =>
    cases h
    exact .inr ⟨rfl, rfl⟩

/-- The fetch in closed form (R401, R402). -/
theorem State.fetch_eq (s : State) :
    s.fetch = if s.pc.toNat < 0xFFF then .ok (fetchedWord s) else .error (max s.pc.toNat 0x1000) := by
  unfold State.fetch
  rw [firstOutOfBounds_eq]
  by_cases h : s.pc.toNat < 0xFFF
  · have h1 : (2 = 0 ∨ s.pc.toNat + 2 ≤ 0x1000) := by omega
    rw [if_pos h, if_pos h1]
    rfl
  · have h1 : ¬ (2 = 0 ∨ s.pc.toNat + 2 ≤ 0x1000) := by omega
    simp only [if_neg h, if_neg h1]

/-- What a step that answers did: it polled while waiting, or failed to fetch, or met an unknown word, or ran the instruction the
fetched word decodes to; in every case the block was not faulted (R400, R406, R1011). -/
theorem step_cases {s t : State} (h : step s = .next t) :
    s.fault = none ∧
    ((∃ r k, s.wait = .waiting r k ∧ t = keyWaitPoll r k s) ∨
     (s.wait = .normal ∧ 0xFFF ≤ s.pc.toNat ∧ t = failed s (.memoryOutOfBounds (max s.pc.toNat 0x1000)) none) ∨
     (s.wait = .normal ∧ s.pc.toNat < 0xFFF ∧ t = failed s (.unknownOpcode (fetchedWord s)) (some (fetchedWord s))) ∨
     (s.wait = .normal ∧ s.pc.toNat < 0xFFF ∧ ∃ i, decode (fetchedWord s) = .ok i ∧ exec i s = .next t)) := by
  unfold step State.cycle at h
  split at h
  · cases h
  · next hf =>
    refine ⟨hf, ?_⟩
    split at h
    · next r k hw =>
      cases h
      exact .inl ⟨r, k, hw, rfl⟩
    · next hw =>
      unfold State.fetchAndExecute at h
      rw [State.fetch_eq] at h
      by_cases hp : s.pc.toNat < 0xFFF
      · rw [if_pos hp] at h
        simp only at h
        split at h
        · cases h
          exact .inr (.inr (.inl ⟨hw, hp, rfl⟩))
        · next i hd => exact .inr (.inr (.inr ⟨hw, hp, i, hd, h⟩))
      · rw [if_neg hp] at h
        cases h
        exact .inr (.inl ⟨hw, by omega, rfl⟩)

/-- A run of `n + 1` steps whose first step answers is a run of `n` steps from its answer. -/
theorem run_succ_of_next (m : Host.Core) {n : Nat} {s t : m.State} (h : m.step s = .next t) : m.run (n + 1) s = m.run n t := by
  simp only [Host.Core.run, h]

/-- The same of the block's own step. -/
theorem core_run_succ {n : Nat} {s t : State} (h : step s = .next t) : Sys2Proof.core.run (n + 1) s = Sys2Proof.core.run n t :=
  run_succ_of_next Sys2Proof.core h

end Sys2Proof.Machine
end

