-- ==== Sys2Proof/Tests/Slice0.lean ====
section
/-! SUPPORT. Tests: operand checks, decoded words, single steps from the vectors of 95_test_vectors.md (named A1, B3, …), and a
witness for the hypotheses of each obligation. -/

namespace Sys2Proof.Machine

/-! ### Operand checks: an operand that does not fit its field is refused (R301, R302) -/

theorem test_reg_range : Operand.reg 15 = some 0xF ∧ Operand.reg 16 = none := by decide
theorem test_height_range : Operand.height 15 = some 0xF ∧ Operand.height 16 = none := by decide
theorem test_imm_range : Operand.imm 255 = some 0xFF ∧ Operand.imm 256 = none := by decide
theorem test_addr_range : Operand.addr 0xFFF = some 0xFFF ∧ Operand.addr 0x1000 = none := by decide
theorem test_fitsField_refuses : fitsField 4 16 = false ∧ fitsField 8 256 = false ∧ fitsField 12 4096 = false := by decide

/-! ### Decoding, from the Encoding line of each instruction's rule -/

theorem test_decode_display :
    decode 0b0000000011100000#16 = .ok .cls ∧ decode 0b1101100101101100#16 = .ok (.drw 0x9 0x6 0xC) := by decide
theorem test_decode_control :
    decode 0b0000000011101110#16 = .ok .ret ∧ decode 0b0001001101011100#16 = .ok (.jp 0x35C) ∧
    decode 0b0010001101011100#16 = .ok (.call 0x35C) ∧ decode 0b1011001101011100#16 = .ok (.jpV0 0x35C) := by decide
theorem test_decode_skips :
    decode 0b0011100110100101#16 = .ok (.seImm 0x9 0xA5) ∧ decode 0b0100100110100101#16 = .ok (.sneImm 0x9 0xA5) ∧
    decode 0b0101100101100000#16 = .ok (.seReg 0x9 0x6) ∧ decode 0b1001100101100000#16 = .ok (.sneReg 0x9 0x6) := by decide
theorem test_decode_loads :
    decode 0b0110100110100101#16 = .ok (.ldImm 0x9 0xA5) ∧ decode 0b0111100110100101#16 = .ok (.addImm 0x9 0xA5) ∧
    decode 0b1000100101100000#16 = .ok (.ldReg 0x9 0x6) ∧ decode 0b1100100110100101#16 = .ok (.rnd 0x9 0xA5) := by decide
theorem test_decode_alu :
    decode 0b1000100101100001#16 = .ok (.orReg 0x9 0x6) ∧ decode 0b1000100101100010#16 = .ok (.andReg 0x9 0x6) ∧
    decode 0b1000100101100011#16 = .ok (.xorReg 0x9 0x6) ∧ decode 0b1000100101100100#16 = .ok (.addReg 0x9 0x6) ∧
    decode 0b1000100101100101#16 = .ok (.subReg 0x9 0x6) ∧ decode 0b1000100101100110#16 = .ok (.shr 0x9 0x6) ∧
    decode 0b1000100101100111#16 = .ok (.subnReg 0x9 0x6) ∧ decode 0b1000100101101110#16 = .ok (.shl 0x9 0x6) := by decide
theorem test_decode_keys_timers :
    decode 0b1110100110011110#16 = .ok (.skp 0x9) ∧ decode 0b1110100110100001#16 = .ok (.sknp 0x9) ∧
    decode 0b1111100100000111#16 = .ok (.ldVxDT 0x9) ∧ decode 0b1111100100001010#16 = .ok (.ldVxK 0x9) ∧
    decode 0b1111100100010101#16 = .ok (.ldDTVx 0x9) ∧ decode 0b1111100100011000#16 = .ok (.ldSTVx 0x9) := by decide
theorem test_decode_index :
    decode 0b1010001101011100#16 = .ok (.ldI 0x35C) ∧ decode 0b1111100100011110#16 = .ok (.addIVx 0x9) ∧
    decode 0b1111100100101001#16 = .ok (.ldFVx 0x9) ∧ decode 0b1111100100110011#16 = .ok (.ldBVx 0x9) ∧
    decode 0b1111100101010101#16 = .ok (.ldMemVx 0x9) ∧ decode 0b1111100101100101#16 = .ok (.ldVxMem 0x9) := by decide

/-- C2 to C10. -/
theorem test_decode_rejects :
    [0x0000, 0x0123, 0x5121, 0x8008, 0x800F, 0x9121, 0xE09F, 0xF000, 0xF075].map decode =
      [0x0000, 0x0123, 0x5121, 0x8008, 0x800F, 0x9121, 0xE09F, 0xF000, 0xF075].map
        (fun op => .error (.unknownOpcode op)) := by decide
theorem test_decodeBytes : decodeBytes [0x12, 0x4E, 0xFF] = .ok (.jp 0x24E, [0xFF]) := by decide
theorem test_decodeTableWord : decodeTableWord 16 0xD452 = some (.drw 4 5 2) ∧ decodeTableWord 16 0x5121 = none := by decide

/-! ### Single steps -/

/-- The next state of an outcome, if it has one. -/
def nextOf (o : Host.Outcome State Fault Refusal) : Option State :=
  match o with
  | .next s => some s
  | _ => none

/-- The start of the vectors: reset, with the registers given. -/
def given (regs : List (Nibble × Byte)) : State := regs.foldl (fun s r => s.setV r.1 r.2) State.reset

/-- The start of the vectors with `I` and memory bytes from `I` up given. -/
def givenAt (regs : List (Nibble × Byte)) (i : Word) (bytes : List Byte) : State :=
  { given regs with i := i, mem := Memory.writeBytes [] i.toNat bytes }

/-- What `f` sees after one step of `s` on the word `w`. -/
def see {α : Type} (s : State) (w : Nat) (f : State → α) : Option α := (nextOf (step (s.withFetchWord 16 w))).map f

/-- `PC` and the error record after one step. -/
def seeFault (s : State) (w : Nat) : Option (Word × Option FaultRecord) := see s w (fun t => (t.pc, t.fault))

/-- A1 -/
theorem test_ldImm : see (given []) 0x6AFF (fun t => (t.v 0xA, t.pc)) = some (0xFF, 0x202) := by decide
/-- A2 -/
theorem test_addImm : see (given [(0, 0xFF), (0xF, 7)]) 0x7001 (fun t => (t.v 0, t.v 0xF)) = some (0, 7) := by decide
/-- A3 -/
theorem test_addImm_vf : see (given [(0xF, 2)]) 0x7FFF (fun t => t.v 0xF) = some 1 := by decide
/-- A4 -/
theorem test_ldReg : see (given [(1, 0x3C)]) 0x8010 (fun t => (t.v 0, t.v 1)) = some (0x3C, 0x3C) := by decide
/-- A6 -/
theorem test_or : see (given [(0, 0xF0), (1, 0x0F), (0xF, 7)]) 0x8011 (fun t => (t.v 0, t.v 0xF)) = some (0xFF, 7) := by decide
/-- A7 -/
theorem test_and : see (given [(0, 0xF0), (1, 0x3C)]) 0x8012 (fun t => t.v 0) = some 0x30 := by decide
/-- A8 -/
theorem test_xor : see (given [(0, 0xF0), (1, 0x3C)]) 0x8013 (fun t => t.v 0) = some 0xCC := by decide
/-- A10 -/
theorem test_addReg : see (given [(0, 0x80), (1, 0x80)]) 0x8014 (fun t => (t.v 0, t.v 0xF)) = some (0, 1) := by decide
/-- A14 -/
theorem test_addReg_vf : see (given [(0xF, 0xFF), (1, 2)]) 0x8F14 (fun t => t.v 0xF) = some 1 := by decide
/-- A15 -/
theorem test_sub_borrow : see (given [(0, 3), (1, 5)]) 0x8015 (fun t => (t.v 0, t.v 0xF)) = some (0xFE, 0) := by decide
/-- the example of R611 -/
theorem test_sub : see (given [(0, 5), (1, 3)]) 0x8015 (fun t => (t.v 0, t.v 0xF)) = some (2, 1) := by decide
/-- the example of R612 -/
theorem test_shr : see (given [(0, 5), (1, 0xFF)]) 0x8016 (fun t => (t.v 0, t.v 0xF)) = some (2, 1) := by decide
/-- A20 -/
theorem test_shr_vf : see (given [(0xF, 3)]) 0x8F06 (fun t => t.v 0xF) = some 1 := by decide
/-- A21 -/
theorem test_subn_borrow : see (given [(0, 5), (1, 3)]) 0x8017 (fun t => (t.v 0, t.v 0xF)) = some (0xFE, 0) := by decide
/-- A23 -/
theorem test_subn_vf : see (given [(0xF, 3), (1, 5)]) 0x8F17 (fun t => t.v 0xF) = some 1 := by decide
/-- the example of R614 -/
theorem test_shl : see (given [(0, 0x81)]) 0x800E (fun t => (t.v 0, t.v 0xF)) = some (2, 1) := by decide
/-- A26 -/
theorem test_shl_vf : see (given [(0xF, 1), (1, 0xFF)]) 0x8F1E (fun t => t.v 0xF) = some 0 := by decide
/-- A27: for the draw 0xB7 under the mask 0x0F; the draw itself is free, so the mask is tested on the operands. -/
theorem test_rnd_mask : (0xB7#8 &&& 0x0F#8) = 0x07#8 ∧ decode 0xC30F = .ok (.rnd 3 0x0F) := by decide
/-- A28: nothing but the draw counter depends on the draw. -/
theorem test_rnd : see (given []) 0xC300 (fun t => (t.pc, t.draws, t.v 4)) = some (0x202, 1, 0) := by decide

/-- B1 -/
theorem test_jp : see (given []) 0x1FFE (fun t => t.pc) = some 0xFFE := by decide
/-- B3 -/
theorem test_call : see (given []) 0x2300 (fun t => (t.stack.get 0, t.sp, t.pc)) = some (0x202, 1, 0x300) := by decide
/-- B5 -/
theorem test_call_full :
    seeFault { given [] with sp := 16 } 0x2300 = some (0x200, some ⟨.stackOverflow, 0x200, some 0x2300⟩) := by decide
/-- the example of R501 -/
theorem test_ret :
    see { given [] with sp := 1, stack := Vector.replicate 16 0x202, pc := 0x300 } 0x00EE (fun t => (t.pc, t.sp)) =
      some (0x202, 0) := by decide
/-- B7 and the record of P7 -/
theorem test_ret_empty :
    seeFault (given []) 0x00EE = some (0x200, some ⟨.stackUnderflow, 0x200, some 0x00EE⟩) := by decide
/-- B8, B9 -/
theorem test_seImm :
    see (given [(0xA, 0x2A)]) 0x3A2A (fun t => t.pc) = some 0x204 ∧
    see (given [(0xA, 0x2B)]) 0x3A2A (fun t => t.pc) = some 0x202 := by decide
/-- B10 and the example of R504 -/
theorem test_sneImm :
    see (given [(0xA, 0x2A)]) 0x4A2A (fun t => t.pc) = some 0x202 ∧
    see (given [(3, 0x2A)]) 0x432B (fun t => t.pc) = some 0x204 := by decide
/-- B11, B15: a skip past the top does not fail by itself. -/
theorem test_seReg :
    see (given [(1, 7), (2, 7)]) 0x5120 (fun t => t.pc) = some 0x204 ∧
    see { given [] with pc := 0xFFE } 0x3000 (fun t => (t.pc, t.fault)) = some (0x1002, none) := by decide
/-- B13, B14 -/
theorem test_sneReg :
    see (given []) 0x9110 (fun t => t.pc) = some 0x202 ∧
    see (given [(1, 7), (2, 8)]) 0x9120 (fun t => t.pc) = some 0x204 := by decide
/-- B16, B17 -/
theorem test_jpV0 :
    see (given [(0, 0x10)]) 0xB200 (fun t => t.pc) = some 0x210 ∧
    see (given [(0, 0xFF)]) 0xBFFF (fun t => (t.pc, t.fault)) = some (0x10FE, none) := by decide

/-- C1, and the next cycle of B17 -/
theorem test_fetch_fault :
    (nextOf (step { State.reset with pc := 0xFFF })).map (fun t => (t.pc, t.fault)) =
      some (0xFFF, some ⟨.memoryOutOfBounds 0x1000, 0xFFF, none⟩) ∧
    (nextOf (step { State.reset with pc := 0x10FE })).map (fun t => t.fault) =
      some (some ⟨.memoryOutOfBounds 0x10FE, 0x10FE, none⟩) := by decide
/-- C2 -/
theorem test_nothing_loaded :
    (nextOf (step State.reset)).map (fun t => (t.pc, t.fault)) =
      some (0x200, some ⟨.unknownOpcode 0x0000, 0x200, some 0x0000⟩) := by decide
/-- C3 -/
theorem test_unknown :
    seeFault (given []) 0x0123 = some (0x200, some ⟨.unknownOpcode 0x0123, 0x200, some 0x0123⟩) := by decide
/-- C11 -/
theorem test_odd_pc : see { given [] with pc := 0x201 } 0x00E0 (fun t => (t.pc, t.fault)) = some (0x203, none) := by decide

/-- D1 -/
theorem test_ldI : see (given []) 0xA123 (fun t => t.i) = some 0x123 := by decide
/-- D3 -/
theorem test_addI_no_carry : see (givenAt [(2, 1)] 0xFFF []) 0xF21E (fun t => (t.i, t.v 0xF)) = some (0x1000, 0) := by decide
/-- D6 -/
theorem test_addI_vf : see (givenAt [(0xF, 1)] 0xFFFF []) 0xFF1E (fun t => (t.i, t.v 0xF)) = some (0, 1) := by decide
/-- D7 -/
theorem test_ldF :
    [0x00, 0x0A, 0x0F, 0x10, 0xFF].map (fun v => see (given [(3, v)]) 0xF329 (fun t => t.i)) =
      [some 0x0000, some 0x0032, some 0x004B, some 0x0050, some 0x04FB] := by decide
/-- D9 -/
theorem test_bcd : see (givenAt [(0, 123)] 0xFFD []) 0xF033 (fun t => t.mem.readBytes 0xFFD 3) = some [1, 2, 3] := by decide
/-- D10 -/
theorem test_bcd_fault :
    seeFault (givenAt [(0, 1)] 0xFFE []) 0xF033 =
      some (0x200, some ⟨.memoryOutOfBounds 0x1000, 0x200, some 0xF033⟩) := by decide
/-- D11 -/
theorem test_store :
    see (givenAt [(0, 1), (1, 2), (2, 3), (3, 4)] 0x300 []) 0xF255 (fun t => (t.mem.readBytes 0x300 4, t.i)) =
      some ([1, 2, 3, 0], 0x300) := by decide
/-- D13 -/
theorem test_store_fault :
    see (givenAt [(0, 9)] 0xFF1 []) 0xFF55 (fun t => (t.mem.read 0xFF1, t.fault.map (·.kind))) =
      some (0, some (.memoryOutOfBounds 0x1000)) := by decide
/-- D15 -/
theorem test_load :
    see (givenAt [(3, 9)] 0x300 [2, 5, 4, 7]) 0xF265 (fun t => (t.v 0, t.v 1, t.v 2, t.v 3, t.i)) =
      some (2, 5, 4, 9, 0x300) := by decide
/-- D14: VF is loaded from memory. -/
theorem test_load_all :
    see (givenAt [] 0x300 ((List.range 16).map (fun k => BitVec.ofNat 8 (0x10 + k)))) 0xFF65 (fun t => (t.v 0, t.v 0xF)) =
      some (0x10, 0x1F) := by decide

/-- E1d -/
theorem test_cls :
    see { given [] with disp := Display.clear.toggle 3 4 } 0x00E0 (fun t => (t.getPixel 3 4, t.v 0xF)) =
      some (false, 0) := by decide
/-- E2d: the sprite wraps in both directions. -/
theorem test_drw_wraps :
    see (givenAt [(4, 0x3E), (5, 0x1F)] 0x300 [0xC0, 0x80]) 0xD452
        (fun t => ([t.getPixel 62 31, t.getPixel 63 31, t.getPixel 62 0, t.getPixel 63 0, t.getPixel 0 31], t.v 0xF)) =
      some ([true, true, true, false, false], 0) := by decide
/-- E7d: a collision, with the old VF as the coordinate. -/
theorem test_drw_collides :
    see { givenAt [(0xF, 5), (0, 2)] 0x300 [0x80] with disp := Display.clear.toggle 5 2 } 0xDF01
        (fun t => (t.getPixel 5 2, t.v 0xF)) = some (false, 1) := by decide

/-- K1, K2 -/
theorem test_skp :
    see ((given [(2, 5)]).setKeyState 5 true) 0xE29E (fun t => t.pc) = some 0x204 ∧
    see (given [(2, 5)]) 0xE29E (fun t => t.pc) = some 0x202 := by decide
/-- K5 -/
theorem test_skp_fault :
    seeFault (given [(2, 0x10)]) 0xE29E =
      some (0x200, some ⟨.keyIndexOutOfRange 0x10, 0x200, some 0xE29E⟩) := by decide
/-- K3, K4 -/
theorem test_sknp :
    see (given [(2, 5)]) 0xE2A1 (fun t => t.pc) = some 0x204 ∧
    see ((given [(2, 5)]).setKeyState 5 true) 0xE2A1 (fun t => t.pc) = some 0x202 := by decide
/-- K6 -/
theorem test_key_stall : see (given []) 0xF30A (fun t => (t.pc, t.wait)) = some (0x200, .normal) := by decide
/-- K7 -/
theorem test_key_capture :
    see ((given []).setKeyState 7 true) 0xF30A (fun t => (t.pc, t.wait, t.v 3)) = some (0x202, .waiting 3 7, 0) := by decide
/-- K9, K10: held, then released. -/
theorem test_key_poll :
    (nextOf (step { (given []).setKeyState 4 true with wait := .waiting 3 4, pc := 0x202 })).map
        (fun t => (t.v 3, t.wait, t.pc)) = some (0, .waiting 3 4, 0x202) ∧
    (nextOf (step { (given []).setKeyState 9 true with wait := .waiting 3 4, pc := 0x202 })).map
        (fun t => (t.v 3, t.wait, t.pc)) = some (4, .normal, 0x202) := by decide
/-- T1 -/
theorem test_ldVxDT : see { given [] with dt := 0x2A } 0xF507 (fun t => t.v 5) = some 0x2A := by decide
/-- T2 -/
theorem test_ldDTVx : see (given [(3, 0x3C)]) 0xF315 (fun t => (t.dt, t.st)) = some (0x3C, 0) := by decide
/-- T3 -/
theorem test_ldSTVx : see (given [(0, 0x0A)]) 0xF018 (fun t => (t.dt, t.soundPort)) = some (0, 0x0A) := by decide

/-! ### Ports -/

/-- The error port of P7: `(StackUnderflow, 3, 0x200, 0x00EE, none)`. -/
theorem test_errorPort :
    (failed State.reset .stackUnderflow (some 0x00EE)).errorPort = some (.stackUnderflow, 3, 0x200, some 0x00EE, none) ∧
    (failed State.reset (.memoryOutOfBounds 0x1000) none).errorPort =
      some (.memoryOutOfBounds 0x1000, 5, 0x200, none, some 0x1000) := ⟨rfl, rfl⟩
/-- R2, R3 -/
theorem test_load_limit :
    (State.reset.load (List.replicate 3585 1)).isOk = false ∧ (State.reset.load (List.replicate 3584 1)).isOk = true := by
  simp only [State.load, maxProgramSize, List.length_replicate]
  exact ⟨rfl, rfl⟩

/-- T4: an update of one cycle of the program `12 00`. -/
theorem test_update_decays :
    (nextOf (State.update 1 ({ State.reset with st := 1 }.withFetchWord 16 0x1200))).map (fun t => (t.pc, t.dt, t.st)) =
      some (0x200, 0, 0) := by decide
/-- P7: the failing update does not decay. -/
theorem test_update_fault :
    (nextOf (State.update 8 ({ State.reset with dt := 5 }.withFetchWord 16 0x00EE))).map
        (fun t => (t.dt, t.sp, t.fault.map (·.kind))) = some (5, 0, some .stackUnderflow) := by decide
/-- R1 -/
theorem test_hostReset :
    let t := (failed (givenAt [(3, 9)] 0x300 [1]) .stackOverflow none).hostReset Config.font
    t.mem.readBytes 0 5 = [0xF0, 0x90, 0x90, 0x90, 0xF0] ∧ t.mem.read 0x300 = 0 ∧ t.v 3 = 0 ∧ t.fault = none := by decide
/-- Another FONT (R118, R209): its bytes at both ends of the font area, and 0x00 above it. -/
theorem test_other_font :
    let m := (State.reset.hostReset (Vector.replicate 80 0x3C)).mem
    m.read 0 = 0x3C ∧ m.read 0x4F = 0x3C ∧ m.read 0x50 = 0 := by decide
/-- E10: the image of the call example. -/
theorem test_load_image :
    (match State.reset.load [0x22, 0x04, 0x00, 0x00, 0x00, 0xEE] with
     | .ok t => some (t.mem.readBytes 0x1FF 8, t.pc)
     | .error _ => none) = some ([0, 0x22, 0x04, 0, 0, 0, 0xEE, 0], 0x200) := by decide

/-! ### Witnesses: states and operands that meet the hypotheses of each obligation -/

/-- A running state whose next word is `w`. -/
def ready (w : Nat) : State := State.reset.withFetchWord 16 w

/-- A word that a check of the whole list finds in no row is in no row. -/
theorem no_row_of_all {op : Word} (h : opcodeRows.all (fun row => selectsRow op row == false) = true) :
    ∀ row ∈ opcodeRows, selectsRow op row = false := fun row hr => eq_of_beq (List.all_eq_true.mp h row hr)

theorem witness_EncodeOfDecode : decode 0x8126 = .ok (.shr 1 2) ∧ decode 0xFF65 = .ok (.ldVxMem 0xF) := by decide
theorem witness_DecodeFollowsOpcodeMap :
    decode 0xF065 = .ok (.ldVxMem 0) ∧ decode 0x8008 = .error (.unknownOpcode 0x8008) ∧
    ∀ row ∈ opcodeRows, selectsRow 0x8008 row = false := ⟨by decide, by decide, no_row_of_all (by decide)⟩
theorem witness_BytesDecodeBigEndian : ([] : List Byte).length < 2 ∧ ([0x00] : List Byte).length < 2 := by decide
theorem witness_StepRunsDecoded :
    let s := ready 0x00E0
    Running s ∧ Fetchable s ∧ decode (fetchedWord s) = .ok .cls := by decide
theorem witness_StepRunsDecoded_top :
    let s := { State.reset with pc := 0xFFE }.withFetchWord 16 0x1200
    s.pc = 0xFFE ∧ Running s ∧ Fetchable s ∧ decode (fetchedWord s) = .ok (.jp 0x200) := by decide
theorem witness_FetchIsBigEndian : Fetchable State.reset ∧ Fetchable { State.reset with pc := 0xFFE } := by decide
theorem witness_FetchOutOfRangeFaults :
    let s := { State.reset with pc := 0xFFF }
    let t := { State.reset with pc := 0x1000 }
    (Running s ∧ 0xFFF ≤ s.pc.toNat) ∧ (Running t ∧ 0xFFF ≤ t.pc.toNat) := by decide
theorem witness_UnknownOpcodeFaults :
    Running State.reset ∧ Fetchable State.reset ∧ ∀ row ∈ opcodeRows, selectsRow (fetchedWord State.reset) row = false :=
  ⟨by decide, by decide, no_row_of_all (by decide)⟩
theorem witness_FaultedBlockIsStuck :
    (failed State.reset .stackOverflow none).fault = some ⟨.stackOverflow, 0x200, none⟩ := by decide
theorem witness_UnfaultedBlockSteps : State.reset.fault = none := by decide
/-- A failing instruction, and a failing fetch. -/
theorem witness_FaultsArePrecise :
    (∃ t r, State.reset.fault = none ∧ step State.reset = .next t ∧ t.fault = some r) ∧
    (∃ t r, step { State.reset with pc := 0xFFF } = .next t ∧ t.fault = some r) :=
  ⟨⟨_, _, rfl, rfl, rfl⟩, ⟨_, _, rfl, rfl⟩⟩
theorem witness_OrdinaryInstructionAdvances :
    ∃ t, ¬ MovesPC .cls ∧ State.reset.fault = none ∧ exec .cls State.reset = .next t ∧ t.fault = none :=
  ⟨_, id, rfl, rfl, rfl⟩
/-- The lowest address above the font, and a piece that reset writes. -/
theorem witness_ResetInstallsTable :
    (∃ t, t = State.reset.hostReset Config.font) ∧ (0x50 : Nat) ≤ 0x50 ∧ Component.pc ≠ .draws := ⟨⟨_, rfl⟩, by decide⟩
theorem witness_UnloadedBlockFaults : ∃ t, t = State.reset.hostReset (Vector.replicate 80 0x3C) := ⟨_, rfl⟩
/-- No fault, and a fault of each kind. -/
theorem witness_ErrorPortGivesCodeAndInfo :
    State.reset.fault = none ∧
    [.unknownOpcode 0xFFFF, .stackOverflow, .stackUnderflow, .romTooLarge 3585, .memoryOutOfBounds 0x1000,
      .keyIndexOutOfRange 0x10].map (fun kind => (failed State.reset kind none).fault) =
    [some ⟨.unknownOpcode 0xFFFF, 0x200, none⟩, some ⟨.stackOverflow, 0x200, none⟩, some ⟨.stackUnderflow, 0x200, none⟩,
      some ⟨.romTooLarge 3585, 0x200, none⟩, some ⟨.memoryOutOfBounds 0x1000, 0x200, none⟩,
      some ⟨.keyIndexOutOfRange 0x10, 0x200, none⟩] := by decide
/-- The invariant holds at reset, and with room to spare. -/
theorem witness_Inv : Inv State.reset :=
  ⟨by decide, ⟨by decide, by decide⟩, fun r h => nomatch h⟩
theorem witness_StepKeepsInv : Inv State.reset ∧ ∃ t, step State.reset = .next t := ⟨witness_Inv, _, rfl⟩
theorem witness_PortsKeepInv :
    Inv State.reset ∧ (∃ t, State.reset.update 0 = .next t) ∧ ∃ t, State.reset.load [0x12, 0x00] = .ok t :=
  ⟨witness_Inv, ⟨_, rfl⟩, ⟨_, rfl⟩⟩
/-- Each clause's change does happen. -/
theorem witness_OnlyNamedInstructionsWrite :
    let lit := { State.reset with disp := Display.clear.toggle 0 0 }
    (nextOf (exec .cls lit)).map (fun t => t.disp == lit.disp) = some false ∧
    (nextOf (exec (.ldBVx 1) (givenAt [(1, 7)] 0x300 []))).map (fun t => t.mem == []) = some false ∧
    (nextOf (exec (.call 0x300) State.reset)).map (fun t => (t.stack == State.reset.stack, t.sp == 0)) = some (false, false) ∧
    (nextOf (exec (.ldI 1) State.reset)).map (fun t => t.i == 0) = some false ∧
    (nextOf (exec (.ldVxK 1) (State.reset.setKeyState 2 true))).map (fun t => (t.wait == .normal, t.draws == 0)) =
      some (false, false) := by decide
theorem witness_OnlyNamedInstructionsWrite_registers :
    (nextOf (exec (.ldImm 2 7) State.reset)).map (fun t => t.v 2 == 0) = some false ∧
    (nextOf (exec (.subReg 0 1) State.reset)).map (fun t => t.v regVF == 0) = some false ∧
    (nextOf (exec (.ldDTVx 1) (given [(1, 7)]))).map (fun t => t.dt == 0) = some false ∧
    (nextOf (exec (.ldSTVx 1) (given [(1, 7)]))).map (fun t => t.st == 0) = some false ∧
    (nextOf (exec .ret State.reset)).map (fun t => t.fault == none) = some false := by decide
theorem witness_TimersWrittenOnlyByTransfers :
    see (given [(3, 0x3C)]) 0xF315 (fun t => t.dt == 0) = some false ∧
    see (given [(3, 0x3C)]) 0xF318 (fun t => t.st == 0) = some false ∧
    (∃ t, State.reset.load [0x12, 0x00] = .ok t) := ⟨by decide, by decide, _, rfl⟩
theorem witness_KeysChangeOnlyByHost : (∃ t, step State.reset = .next t) ∧ ∃ t, State.reset.update 1 = .next t :=
  ⟨⟨_, rfl⟩, ⟨_, rfl⟩⟩
theorem witness_VFWrittenOnlyAsFlagOrDestination :
    (∃ t, exec (.addReg 0 1) State.reset = .next t ∧ WritesFlag (.addReg 0 1) ∧ State.reset.fault = none ∧ t.fault = none) ∧
    (∃ t, exec (.ldImm 0xE 1) State.reset = .next t ∧ ¬ WritesFlag (.ldImm 0xE 1) ∧ ¬ destinations (.ldImm 0xE 1) regVF) :=
  ⟨⟨_, rfl, trivial, rfl, rfl⟩, ⟨_, rfl, id, (by decide : ¬ regVF = (0xE : Nibble))⟩⟩
theorem witness_SoundTimerIsNotRead : ∃ t, exec .cls State.reset = .next t := ⟨_, rfl⟩
/-- Room for one more and for the last; full; the deepest and the only entry; empty. -/
theorem witness_CallPushesReturnPops :
    (State.reset.sp.val = (0 : Fin 16).val ∧ { State.reset with sp := 15 }.sp.val = (15 : Fin 16).val) ∧
    { State.reset with sp := 16 }.sp.val = 16 ∧
    ({ State.reset with sp := 16 }.sp.val = (15 : Fin 16).val + 1 ∧ { State.reset with sp := 1 }.sp.val = (0 : Fin 16).val + 1) ∧
    State.reset.sp.val = 0 := by decide
theorem witness_CallThenReturnComesBack :
    State.reset.sp.val = (0 : Fin 16).val ∧ { State.reset with sp := 15 }.sp.val = (15 : Fin 16).val := by decide
/-- Both outcomes of a compare. -/
theorem witness_ComparesSkipOneWord :
    (given [(1, 5)]).v 1 = 5 ∧ (given [(1, 5)]).v 1 ≠ (given [(1, 5)]).v 2 := by decide
theorem witness_result_is_not_VF : (0xE : Nibble) ≠ regVF ∧ (0x0 : Nibble) ≠ regVF := by decide
/-- Sums of 255 and 256; operands equal and one below. -/
theorem witness_CarryLaw_BorrowLaw :
    let s := given [(0, 0xFF), (2, 1)]
    (¬ (s.v 0).toNat + (s.v 1).toNat > 255 ∧ (s.v 0).toNat + (s.v 2).toNat > 255) ∧
    ((s.v 2).toNat ≥ (s.v 2).toNat ∧ ¬ (s.v 1).toNat ≥ (s.v 2).toNat) := by decide
theorem witness_DrawTogglesCoveredPixels :
    ((0 : Nibble) = 0 ∧ ¬ InRange { State.reset with i := 0xFFFF } 1) ∧
    InRange { State.reset with i := 0xFFF } 1 ∧ InRange { State.reset with i := 0xFF1 } 15 ∧
    ¬ InRange { State.reset with i := 0xFFF } 2 := by decide
/-- A covered pixel, in the last column and row after wrapping, and one that is not covered. -/
theorem witness_SpriteCovers :
    SpriteCovers (givenAt [(0, 70), (1, 63)] 0x300 [0x81]) 0 1 1 13 31 ∧
    ¬ SpriteCovers (givenAt [(0, 70), (1, 63)] 0x300 [0x81]) 0 1 0 13 31 :=
  ⟨⟨0, by decide, 7, by decide, by decide, by decide, by decide⟩, fun ⟨_, h, _⟩ => absurd h (Nat.not_lt_zero _)⟩
theorem witness_DrawTwiceRestores :
    InRange State.reset (5 : Nibble).toNat ∧ ∃ t, exec (.drw 0 1 5) State.reset = .next t ∧
      t.v 0 = State.reset.v 0 ∧ t.v 1 = State.reset.v 1 := ⟨by decide, _, rfl, by decide, by decide⟩
theorem witness_KeySkipsTestOneKey :
    ((given [(2, 0x0F)]).v 2).toNat = (0xF : Nibble).toNat ∧ 0xF < ((given [(2, 0x10)]).v 2).toNat := by decide
theorem witness_KeyWaitCapturesOrStalls :
    (∃ k, (State.reset.setKeyState 0xF true).key k = true) ∧ ∀ k, State.reset.key k = false := ⟨⟨0xF, by decide⟩, by decide⟩
theorem witness_OnlyKeyDownIsCaptured :
    let s := State.reset.setKeyState 7 true
    s.key 7 = true ∧ ∀ j, s.key j = true → j = 7 := by decide
/-- Released, and held. -/
theorem witness_WaitingCyclePolls :
    let s := { State.reset with wait := .waiting 3 4 }
    (s.fault = none ∧ s.wait = .waiting 3 4 ∧ s.key 4 = false) ∧
    ((s.setKeyState 4 true).fault = none ∧ (s.setKeyState 4 true).wait = .waiting 3 4 ∧ (s.setKeyState 4 true).key 4 = true) := by
  decide
/-- Sums of 0xFFFF and 0x10000. -/
theorem witness_IndexAddCarries :
    let s := givenAt [(2, 1)] 0xFFFF []
    ¬ s.i.toNat + (s.v 0).toNat > 0xFFFF ∧ s.i.toNat + (s.v 2).toNat > 0xFFFF := by decide
theorem witness_BcdStoresDigits : let s := { State.reset with i := 0xFFD }; s.mem.wf ∧ InRange s 3 := by decide
theorem witness_StoreRegistersToMemory :
    let s := { State.reset with i := 0xFF0 }; s.mem.wf ∧ InRange s ((0xF : Nibble).toNat + 1) := by decide
theorem witness_LoadRegistersFromMemory : InRange { State.reset with i := 0xFFF } ((0 : Nibble).toNat + 1) := by decide
theorem witness_StoreThenLoadRestores :
    let s := { given [(0, 9)] with i := 0xFFF }
    s.mem.wf ∧ InRange s ((0 : Nibble).toNat + 1) ∧ ∃ t, exec (.ldMemVx 0) s = .next t := ⟨by decide, by decide, _, rfl⟩
theorem witness_TransfersOutOfRangeFault :
    ((2 : Nibble) ≠ 0 ∧ ¬ InRange { State.reset with i := 0xFFF } (2 : Nibble).toNat) ∧
    ¬ InRange { State.reset with i := 0xFFE } 3 ∧ ¬ InRange { State.reset with i := 0xFF1 } ((0xF : Nibble).toNat + 1) := by
  decide
/-- FX55 over both bytes of the next word, FX33 over the second alone (its last two digits behind it), and a load over the
first alone. -/
theorem witness_StoredBytesAreFetchedNext :
    let s := { State.reset with i := 0x202 }
    let u := { State.reset with i := 0x203 }
    let w := { State.reset with pc := 0x200 }
    (s.mem.wf ∧ InRange s ((1 : Nibble).toNat + 1) ∧ ∃ t, exec (.ldMemVx 1) s = .next t ∧ Fetchable t ∧ t.pc.toNat = s.i.toNat) ∧
    (u.mem.wf ∧ InRange u 3 ∧ ∃ t, exec (.ldBVx 1) u = .next t ∧ Fetchable t ∧ t.pc.toNat + 1 = u.i.toNat) ∧
    (w.mem.wf ∧ ∃ t, w.load [0x12] = .ok t ∧ Fetchable t ∧ t.pc = 0x200) :=
  ⟨⟨by decide, by decide, _, rfl, by decide, by decide⟩, ⟨by decide, by decide, _, rfl, by decide, by decide⟩,
    by decide, _, rfl, by decide, by decide⟩
/-- The bounds of the two branches: timers at 0 and at 1. -/
theorem witness_DecayTakesOneFromEachTimer : ¬ State.reset.dt.toNat > 0 ∧ { State.reset with dt := 1 }.dt.toNat > 0 := by decide
/-- An update whose cycles all complete, and one with a failing cycle. -/
theorem witness_UpdateRunsCyclesThenDecays :
    (nextOf ((ready 0x1200).update 2)).map (fun t => t.fault) = some none ∧
    (nextOf ((ready 0x00EE).update 2)).map (fun t => t.fault) = some (some ⟨.stackUnderflow, 0x200, some 0x00EE⟩) := by decide
theorem witness_Parked : Parked 0x200 (ready 0x1200) := ⟨by decide, by decide, by decide, by decide, by decide⟩
theorem witness_EndedRunStaysEnded :
    (Ended (ready 0x1200) ∧ ∃ t, step (ready 0x1200) = .next t) ∧ Ended (failed State.reset .stackOverflow none) :=
  ⟨⟨.inr ⟨0x200, witness_Parked⟩, _, rfl⟩, .inl (by decide)⟩
theorem witness_LoadPlacesImage :
    State.reset.mem.wf ∧ (List.replicate 3584 (1 : Byte)).length ≤ 3584 ∧ 3584 < (List.replicate 3585 (1 : Byte)).length := by
  simp only [List.length_replicate]
  decide
theorem witness_PlacedWordRunsNext : State.reset.mem.wf ∧ decodeTableWord 16 0x00E0 = some .cls := by decide

end Sys2Proof.Machine
end

section
/-! SUPPORT. The family of 10_state.md: which fields an instruction writes, the keys, VF, the unread sound timer, and the
stack. -/

namespace Sys2Proof.Machine

/-! ### 2NNN and 00EE as equations (R501, R502) -/

/-- 2NNN with room (R502). -/
theorem exec_call_of_room {s : State} (nnn : Addr) (h : s.sp.val < 16) :
    exec (.call nnn) s = .next { s with
      pc := addrOperand nnn
      stack := s.stack.set s.sp.val (s.pc + 2) h
      sp := ⟨s.sp.val + 1, Nat.succ_lt_succ h⟩ } := by
  simp only [exec, execCall, State.push_of_room (s := s.advance) _ h]
  rfl

/-- 2NNN on a full stack (R502, R1002). -/
theorem exec_call_of_full {s : State} (nnn : Addr) (h : s.sp.val = 16) :
    exec (.call nnn) s = .next (failed s .stackOverflow (some (encode (.call nnn)))) := by
  simp only [exec, execCall, State.push_none (s := s.advance).mpr h]
  rfl

/-- 00EE on a stack that is not empty (R501). -/
theorem exec_ret_of_nonempty {s : State} {k : Nat} (h : s.sp.val = k + 1) (lt : k < 16) :
    exec .ret s = .next { s with pc := s.stack[k], sp := ⟨k, Nat.lt_succ_of_lt lt⟩ } := by
  simp only [exec, execRet, State.pop_of_nonempty (s := s.advance) h lt]
  rfl

/-- 00EE on an empty stack (R501, R1003). -/
theorem exec_ret_of_empty {s : State} (h : s.sp.val = 0) :
    exec .ret s = .next (failed s .stackUnderflow (some (encode .ret))) := by
  simp only [exec, execRet, State.pop_none (s := s.advance).mpr h]
  rfl

/-! ### What the shared operations write -/

/-- A skip is a jump, to `PC` or `PC + 2` (R509). -/
theorem State.eq_jump_of_skipIf {s t : State} {c : Bool} (h : s.skipIf c = t) : ∃ a, t = s.jump a := by
  cases c
  · exact ⟨s.pc, h.symm⟩
  · exact ⟨s.pc + 2, h.symm⟩

/-- Loading consecutive registers writes the registers alone (R905). -/
theorem State.setVs_eq_with_vregs (s : State) (k : Nat) (bs : List Byte) :
    ∃ vs, s.setVs k bs = { s with vregs := vs } := by
  induction bs generalizing s k with
  | nil => exact ⟨s.vregs, rfl⟩
  | cons b rest ih => exact ih (s.setV _ b) (k + 1)

/-- What an access-checked effect can leave: the fault alone, or the whole effect (R205). -/
theorem State.withAccess_cases {s body t : State} {base count : Nat} {op : Word}
    (h : s.withAccess base count op body = .next t) : (∃ kind, t = failed s kind (some op)) ∨ t = body := by
  rw [State.withAccess_eq] at h
  split at h
  · exact .inr (next_inj.mp h).symm
  · exact .inl ⟨_, (next_inj.mp h).symm⟩

/-! ### The fields an instruction writes (10_state.md R100) -/

/-- From `s` to `t` only the fields that R100's table gives to the instruction differ: `PC` for all of them, `fault` for those
with a check, and the named ones. `exec_writesFields` ties it to `exec`. -/
def WritesFields (i : Instr) (s t : State) : Prop :=
  match i with
  | .jp _ | .jpV0 _ | .seImm _ _ | .sneImm _ _ | .seReg _ _ | .sneReg _ _ => t = { s with pc := t.pc }
  | .skp _ | .sknp _ => t = { s with pc := t.pc, fault := t.fault }
  | .cls => t = { s with pc := t.pc, disp := t.disp }
  | .drw _ _ _ => t = { s with pc := t.pc, disp := t.disp, vregs := t.vregs, fault := t.fault }
  | .ret => t = { s with pc := t.pc, sp := t.sp, fault := t.fault }
  | .call _ => t = { s with pc := t.pc, stack := t.stack, sp := t.sp, fault := t.fault }
  | .ldImm _ _ | .addImm _ _ | .ldReg _ _ | .orReg _ _ | .andReg _ _ | .xorReg _ _ | .addReg _ _ | .subReg _ _
  | .shr _ _ | .subnReg _ _ | .shl _ _ | .ldVxDT _ => t = { s with pc := t.pc, vregs := t.vregs }
  | .rnd _ _ => t = { s with pc := t.pc, vregs := t.vregs, draws := t.draws }
  | .ldVxK _ => t = { s with pc := t.pc, wait := t.wait, draws := t.draws }
  | .ldDTVx _ => t = { s with pc := t.pc, dt := t.dt }
  | .ldSTVx _ => t = { s with pc := t.pc, st := t.st }
  | .ldI _ | .ldFVx _ => t = { s with pc := t.pc, i := t.i }
  | .addIVx _ => t = { s with pc := t.pc, i := t.i, vregs := t.vregs }
  | .ldBVx _ | .ldMemVx _ => t = { s with pc := t.pc, mem := t.mem, fault := t.fault }
  | .ldVxMem _ => t = { s with pc := t.pc, vregs := t.vregs, fault := t.fault }

section
variable {i : Instr} {s t : State}

/-- Every instruction writes the fields R100 names for it and no others. -/
theorem exec_writesFields (h : exec i s = .next t) : WritesFields i s t := by
  cases i with
  | seImm _ _ | sneImm _ _ | seReg _ _ | sneReg _ _ =>
    obtain ⟨a, rfl⟩ := State.eq_jump_of_skipIf (next_inj.mp h)
    rfl
  | skp x | sknp x =>
    simp only [exec, execSkp, execSknp] at h
    split at h
    · obtain ⟨a, rfl⟩ := State.eq_jump_of_skipIf (next_inj.mp h)
      rfl
    · cases h
      rfl
  | ret =>
    cases hk : s.sp.val with
    | zero =>
      cases h.symm.trans (exec_ret_of_empty hk)
      rfl
    | succ k =>
      cases h.symm.trans (exec_ret_of_nonempty hk (by omega))
      rfl
  | call nnn =>
    by_cases lt : s.sp.val < 16
    · cases h.symm.trans (exec_call_of_room nnn lt)
      rfl
    · cases h.symm.trans (exec_call_of_full nnn (by omega))
      rfl
  | ldVxK x =>
    simp only [exec, execLdVxK] at h
    split at h <;> cases h <;> rfl
  | drw _ _ _ | ldBVx _ | ldMemVx _ => obtain ⟨_, rfl⟩ | rfl := State.withAccess_cases h <;> rfl
  | ldVxMem x =>
    obtain ⟨_, rfl⟩ | e := State.withAccess_cases h
    · rfl
    · obtain ⟨vs, e'⟩ := State.setVs_eq_with_vregs s.advance 0 (s.mem.readBytes s.i.toNat (x.toNat + 1))
      rw [e, e']
      rfl
  | _ =>
    cases h
    rfl

/-! Which instructions a changed field points to: those in whose rows of `WritesFields` it stands, since in every other row the
field is the one of `s`. -/

theorem WritesFields.of_disp_ne (hw : WritesFields i s t) (hne : t.disp ≠ s.disp) :
    i = .cls ∨ ∃ x y n, i = .drw x y n := by
  cases i with
  | cls => exact .inl rfl
  | drw x y n => exact .inr ⟨x, y, n, rfl⟩
  | _ => exact absurd (congrArg State.disp hw) hne

theorem WritesFields.of_mem_ne (hw : WritesFields i s t) (hne : t.mem ≠ s.mem) :
    ∃ x, i = .ldBVx x ∨ i = .ldMemVx x := by
  cases i with
  | ldBVx x => exact ⟨x, .inl rfl⟩
  | ldMemVx x => exact ⟨x, .inr rfl⟩
  | _ => exact absurd (congrArg State.mem hw) hne

theorem WritesFields.of_stack_ne (hw : WritesFields i s t) (hne : t.stack ≠ s.stack) : ∃ nnn, i = .call nnn := by
  cases i with
  | call nnn => exact ⟨nnn, rfl⟩
  | _ => exact absurd (congrArg State.stack hw) hne

theorem WritesFields.of_sp_ne (hw : WritesFields i s t) (hne : t.sp ≠ s.sp) : i = .ret ∨ ∃ nnn, i = .call nnn := by
  cases i with
  | ret => exact .inl rfl
  | call nnn => exact .inr ⟨nnn, rfl⟩
  | _ => exact absurd (congrArg State.sp hw) hne

theorem WritesFields.of_i_ne (hw : WritesFields i s t) (hne : t.i ≠ s.i) :
    (∃ nnn, i = .ldI nnn) ∨ ∃ x, i = .addIVx x ∨ i = .ldFVx x := by
  cases i with
  | ldI nnn => exact .inl ⟨nnn, rfl⟩
  | addIVx x => exact .inr ⟨x, .inl rfl⟩
  | ldFVx x => exact .inr ⟨x, .inr rfl⟩
  | _ => exact absurd (congrArg State.i hw) hne

theorem WritesFields.of_dt_ne (hw : WritesFields i s t) (hne : t.dt ≠ s.dt) : ∃ x, i = .ldDTVx x := by
  cases i with
  | ldDTVx x => exact ⟨x, rfl⟩
  | _ => exact absurd (congrArg State.dt hw) hne

theorem WritesFields.of_st_ne (hw : WritesFields i s t) (hne : t.st ≠ s.st) : ∃ x, i = .ldSTVx x := by
  cases i with
  | ldSTVx x => exact ⟨x, rfl⟩
  | _ => exact absurd (congrArg State.st hw) hne

theorem WritesFields.of_wait_ne (hw : WritesFields i s t) (hne : t.wait ≠ s.wait) : ∃ x, i = .ldVxK x := by
  cases i with
  | ldVxK x => exact ⟨x, rfl⟩
  | _ => exact absurd (congrArg State.wait hw) hne

theorem WritesFields.of_fault_ne (hw : WritesFields i s t) (hne : t.fault ≠ s.fault) :
    i = .ret ∨ (∃ nnn, i = .call nnn) ∨ (∃ x y n, i = .drw x y n) ∨
    ∃ x, i = .skp x ∨ i = .sknp x ∨ i = .ldBVx x ∨ i = .ldMemVx x ∨ i = .ldVxMem x := by
  cases i with
  | ret | call _ | drw _ _ _ | skp _ | sknp _ | ldBVx _ | ldMemVx _ | ldVxMem _ => simp
  | _ => exact absurd (congrArg State.fault hw) hne

theorem WritesFields.of_draws_ne (hw : WritesFields i s t) (hne : t.draws ≠ s.draws) :
    ∃ x, i = .ldVxK x ∨ ∃ nn, i = .rnd x nn := by
  cases i with
  | ldVxK x => exact ⟨x, .inl rfl⟩
  | rnd x nn => exact ⟨x, .inr ⟨nn, rfl⟩⟩
  | _ => exact absurd (congrArg State.draws hw) hne

theorem WritesFields.keys_eq (hw : WritesFields i s t) : t.keys = s.keys := by
  cases i <;> exact (congrArg State.keys hw :)

/-- A register is left alone by an instruction it is no destination of, unless it is VF and the instruction writes the flag
(R103). -/
theorem exec_v_of_not_written {r : Nibble} (h : exec i s = .next t) (hd : ¬ destinations i r)
    (hf : ¬ (r = regVF ∧ WritesFlag i)) : t.v r = s.v r := by
  cases i with
  | ldImm _ _ | addImm _ _ | ldReg _ _ | orReg _ _ | andReg _ _ | xorReg _ _ | rnd _ _ | ldVxDT _ =>
    cases h
    exact State.v_setV_ne _ _ hd
  | addReg _ _ | subReg _ _ | shr _ _ | subnReg _ _ | shl _ _ =>
    cases h
    exact (State.v_setV_ne _ _ fun e => hf ⟨e, trivial⟩).trans (State.v_setV_ne _ _ hd)
  | addIVx x =>
    cases h
    exact State.v_setV_ne _ _ fun e => hf ⟨e, trivial⟩
  | drw x y n =>
    obtain ⟨_, rfl⟩ | rfl := State.withAccess_cases h
    · rfl
    · exact State.v_setV_ne _ _ fun e => hf ⟨e, trivial⟩
  | ldVxMem x =>
    obtain ⟨_, rfl⟩ | rfl := State.withAccess_cases h
    · rfl
    · have hx := x.isLt
      have hr : ¬ r.toNat ≤ x.toNat := hd
      rw [State.v_setVs _ _ _ _ (by rw [Memory.length_readBytes]; omega),
        if_neg (by rw [Memory.length_readBytes]; omega)]
      rfl
  | _ => exact (congrArg (State.v · r) (exec_writesFields h) :)

end

/-- Settles O20: the registers by `exec_v_of_not_written`, each other field by the row the instruction has in R100's table. -/
theorem onlyNamedInstructionsWrite : Obligations.OnlyNamedInstructionsWrite := by
  intro i s t h
  have hw := exec_writesFields h
  refine ⟨fun r hne => ?_, hw.of_disp_ne, hw.of_mem_ne, hw.of_stack_ne, hw.of_sp_ne, hw.of_i_ne, hw.of_dt_ne, hw.of_st_ne,
    hw.of_wait_ne, hw.of_fault_ne, hw.of_draws_ne, hw.keys_eq⟩
  by_contra hn
  obtain ⟨hd, hf⟩ := not_or.mp hn
  exact hne (exec_v_of_not_written h hd hf)

/-! ### The keys (R113, R412) -/

@[simp] theorem failed_keys (s : State) (kind : ErrorKind) (op : Option Word) : (failed s kind op).keys = s.keys := rfl

@[simp] theorem keyWaitPoll_keys (r k : Nibble) (s : State) : (keyWaitPoll r k s).keys = s.keys := by
  unfold keyWaitPoll
  split <;> rfl

theorem step_keys {s t : State} (h : step s = .next t) : t.keys = s.keys := by
  obtain ⟨-, ⟨r, k, -, rfl⟩ | ⟨-, -, rfl⟩ | ⟨-, -, rfl⟩ | ⟨-, -, i, -, he⟩⟩ := step_cases h
  · exact keyWaitPoll_keys r k s
  · exact failed_keys s _ _
  · exact failed_keys s _ _
  · exact (exec_writesFields he).keys_eq

theorem runCycles_keys {n : Nat} {s t : State} (h : State.runCycles n s = .next t) : t.keys = s.keys := by
  induction n generalizing s with
  | zero =>
    cases h
    rfl
  | succ n ih =>
    unfold State.runCycles at h
    split at h
    · next s' hs =>
      have hk := step_keys hs
      split at h
      · cases h
        exact hk
      · exact (ih h).trans hk
    · cases h
    · cases h

theorem update_keys {n : Nat} {s t : State} (h : s.update n = .next t) : t.keys = s.keys := by
  unfold State.update at h
  split at h
  · cases h
  · split at h
    · next s' hs =>
      have hk := runCycles_keys hs
      cases h
      split <;> exact hk
    · cases h
    · cases h

/-- The keypad port writes the named key and nothing else (R120). -/
theorem Frame.setKeyState (s : State) (k : Nibble) (p : Bool) : Frame s (s.setKeyState k p) (· = .key k) := by
  intro c hc
  cases c with
  | key j => exact (State.key_setKeyState s k j p).trans (if_neg fun e => hc (congrArg _ e))
  | _ => rfl

/-- Settles O22: no cycle writes the keys, so no update does, and the keypad port writes one. -/
theorem keysChangeOnlyByHost : Obligations.KeysChangeOnlyByHost :=
  ⟨fun _ _ => step_keys, fun _ _ _ => update_keys,
    fun s k p => ⟨(State.key_setKeyState s k k p).trans (if_pos rfl), Frame.setKeyState s k p⟩⟩

/-! ### VF (R103, R104) -/

/-- A written flag is 0 or 1 (R104). -/
theorem State.v_setVF_zero_or_one (s : State) (f : Bool) : (s.setVF f).v regVF = 0 ∨ (s.setVF f).v regVF = 1 := by
  cases f
  · exact .inl (State.v_setV_self s regVF 0)
  · exact .inr (State.v_setV_self s regVF 1)

/-- A flag-writing instruction fails or has the flag as its last write (R609, the spec's decision D6). -/
theorem exec_ends_with_setVF {i : Instr} {s t : State} (h : exec i s = .next t) (hf : WritesFlag i) :
    (∃ kind, t = failed s kind (some (encode i))) ∨ ∃ u f, t = State.setVF u f := by
  cases i with
  | addReg _ _ | subReg _ _ | shr _ _ | subnReg _ _ | shl _ _ | addIVx _ =>
    cases h
    exact .inr ⟨_, _, rfl⟩
  | drw x y n => exact (State.withAccess_cases h).imp_right fun e => ⟨_, _, e⟩
  | _ => exact hf.elim

/-- Settles O23: the flag is the last write of its instructions, and the others leave VF unless it is their destination. -/
theorem vfWrittenOnlyAsFlagOrDestination : Obligations.VFWrittenOnlyAsFlagOrDestination := by
  intro i s t h
  refine ⟨fun hf _ ht => ?_, fun hf hd => exec_v_of_not_written h hd fun hvf => hf hvf.2⟩
  obtain ⟨kind, rfl⟩ | ⟨u, f, rfl⟩ := exec_ends_with_setVF h hf
  · cases ht
  · exact State.v_setVF_zero_or_one u f

/-! ### The sound timer is not read (R111) -/

theorem State.skipIf_with_st (s : State) (c : Bool) (v : Byte) :
    { s with st := v }.skipIf c = { s.skipIf c with st := v } := by
  cases c <;> rfl

theorem State.setVs_with_st (s : State) (k : Nat) (bs : List Byte) (v : Byte) :
    { s with st := v }.setVs k bs = { s.setVs k bs with st := v } := by
  induction bs generalizing s k with
  | nil => rfl
  | cons b rest ih => exact ih (s.setV _ b) (k + 1)

theorem keyOperand_with_st (s : State) (x : Nibble) (v : Byte) : keyOperand { s with st := v } x = keyOperand s x := rfl

theorem State.keysDown_with_st (s : State) (v : Byte) : { s with st := v }.keysDown = s.keysDown := rfl

theorem State.withAccess_with_st {s body t : State} {base count : Nat} {op : Word} (v : Byte)
    (h : s.withAccess base count op body = .next t) :
    { s with st := v }.withAccess base count op { body with st := v } = .next { t with st := v } := by
  unfold State.withAccess at h ⊢
  split at h <;> cases h <;> rfl

/-- With another value in `ST` an instruction does the same, up to what `ST` holds after it. -/
theorem exec_with_st {i : Instr} {s t : State} (v : Byte) (h : exec i s = .next t) :
    ∃ w, exec i { s with st := v } = .next { t with st := w } := by
  cases i with
  | ldSTVx x =>
    cases h
    exact ⟨s.v x, rfl⟩
  | seImm _ _ | sneImm _ _ | seReg _ _ | sneReg _ _ =>
    cases h
    exact ⟨v, next_inj.mpr (State.skipIf_with_st s.advance _ v)⟩
  | skp x | sknp x =>
    refine ⟨v, ?_⟩
    simp only [exec, execSkp, execSknp, keyOperand_with_st] at h ⊢
    split at h <;> cases h
    · exact next_inj.mpr (State.skipIf_with_st s.advance _ v)
    · rfl
  | ret =>
    cases hk : s.sp.val with
    | zero =>
      cases h.symm.trans (exec_ret_of_empty hk)
      exact ⟨v, exec_ret_of_empty (s := { s with st := v }) hk⟩
    | succ k =>
      have lt : k < 16 := by omega
      cases h.symm.trans (exec_ret_of_nonempty hk lt)
      exact ⟨v, exec_ret_of_nonempty (s := { s with st := v }) hk lt⟩
  | call nnn =>
    by_cases lt : s.sp.val < 16
    · cases h.symm.trans (exec_call_of_room nnn lt)
      exact ⟨v, exec_call_of_room (s := { s with st := v }) nnn lt⟩
    · have hfull : s.sp.val = 16 := by omega
      cases h.symm.trans (exec_call_of_full nnn hfull)
      exact ⟨v, exec_call_of_full (s := { s with st := v }) nnn hfull⟩
  | ldVxK x =>
    refine ⟨v, ?_⟩
    simp only [exec, execLdVxK, State.keysDown_with_st] at h ⊢
    split at h <;> cases h <;> rfl
  | drw _ _ _ | ldBVx _ | ldMemVx _ => exact ⟨v, State.withAccess_with_st v h⟩
  | ldVxMem x =>
    have := State.withAccess_with_st v h
    rw [← State.setVs_with_st] at this
    exact ⟨v, this⟩
  | _ =>
    cases h
    exact ⟨v, rfl⟩

/-- Settles O24: the two next states differ in `ST` at most. -/
theorem soundTimerIsNotRead : Obligations.SoundTimerIsNotRead := by
  intro i s t v h
  obtain ⟨w, hw⟩ := exec_with_st v h
  refine ⟨_, hw, fun c hc => ?_⟩
  cases c with
  | st => exact absurd rfl hc
  | _ => rfl

/-! ### The stack (R109) -/

/-- The address operand keeps its value (R302). -/
@[simp] theorem addrOperand_toNat (nnn : Addr) : (addrOperand nnn).toNat = nnn.toNat := by
  have := nnn.isLt
  simp only [addrOperand, BitVec.toNat_setWidth]
  omega

/-- A failure changes nothing but `fault` (R1008). -/
theorem Frame.failed (s : State) (kind : ErrorKind) (op : Option Word) : Frame s (failed s kind op) (· = .fault) :=
  Frame.raise (State.raise_eq s kind op)

/-- Settles O26: the four equations of 2NNN and 00EE, and what each leaves alone. -/
theorem callPushesReturnPops : Obligations.CallPushesReturnPops := by
  intro s nnn
  refine ⟨fun k hk => ?_, fun hfull => ?_, fun k hk => ?_, fun hempty => ?_⟩
  · have lt : s.sp.val < 16 := hk ▸ k.isLt
    refine ⟨_, exec_call_of_room nnn lt, by simp [Vector.get_eq_getElem, hk], by simp [hk], addrOperand_toNat nnn, ?_⟩
    intro c hc
    cases c with
    | pc | sp => simp at hc
    | stackEntry j =>
      have hj : s.sp.val ≠ j.val := fun e => hc (by simp [← Fin.val_inj, ← hk, e])
      simp [Component.same, Vector.get_eq_getElem, hj]
    | _ => rfl
  · exact ⟨_, _, exec_call_of_full nnn hfull, rfl, rfl, Frame.failed s _ _⟩
  · refine ⟨_, exec_ret_of_nonempty hk k.isLt, rfl, rfl, fun c hc => ?_⟩
    cases c with
    | pc | sp => simp at hc
    | _ => rfl
  · exact ⟨_, _, exec_ret_of_empty hempty, rfl, rfl, Frame.failed s _ _⟩

end Sys2Proof.Machine
end

section
/-! SUPPORT. The family of 20_memory.md: memory transfers out of range, and the fetch of bytes just stored. -/

namespace Sys2Proof.Machine

/-! ### The access check on the bytes from `I` up (R205) -/

section
variable {s : State} {count : Nat}

/-- An effect whose bytes all exist happens whole. -/
theorem State.withAccess_of_inRange (op : Word) (body : State) (h : InRange s count) :
    s.withAccess s.i.toNat count op body = .next body := by
  rw [State.withAccess_eq, if_pos (.inr h)]

/-- An effect with an address past 0xFFF leaves the record of the first one alone. -/
theorem State.withAccess_of_not_inRange (op : Word) (body : State) (h0 : count ≠ 0) (h : ¬ InRange s count) :
    s.withAccess s.i.toNat count op body =
      .next (failed s (.memoryOutOfBounds (max s.i.toNat 0x1000)) (some op)) := by
  have out : ¬ (count = 0 ∨ s.i.toNat + count ≤ 0x1000) := not_or.mpr ⟨h0, h⟩
  rw [State.withAccess_eq, if_neg out, State.raise_eq]

end

/-- Settles O52: the four transfers are one access check each, on a count that is not 0. -/
theorem transfersOutOfRangeFault : Obligations.TransfersOutOfRangeFault := by
  intro s x y n
  have n_ne (hn : n ≠ 0) : n.toNat ≠ 0 := fun e => hn (BitVec.eq_of_toNat_eq e)
  exact ⟨fun hn => State.withAccess_of_not_inRange _ _ (n_ne hn),
    State.withAccess_of_not_inRange _ _ (by decide),
    fun h => ⟨State.withAccess_of_not_inRange _ _ (Nat.succ_ne_zero _) h,
      State.withAccess_of_not_inRange _ _ (Nat.succ_ne_zero _) h⟩⟩

/-! ### The writers of memory as equations (R210, R903, R904) -/

@[simp] theorem length_regsThrough (s : State) (x : Nibble) : (regsThrough s x).length = x.toNat + 1 := by
  simp [regsThrough]

@[simp] theorem length_decimalDigits (v : Byte) : (decimalDigits v).length = 3 := rfl

/-- FX33 in range (R903). -/
theorem exec_ldBVx_of_inRange {s : State} (x : Nibble) (h : InRange s 3) :
    exec (.ldBVx x) s = .next { s with
      pc := s.pc + 2
      mem := s.mem.writeBytes s.i.toNat (decimalDigits (s.v x)) } :=
  State.withAccess_of_inRange _ _ h

/-- FX55 in range (R904). -/
theorem exec_ldMemVx_of_inRange {s : State} (x : Nibble) (h : InRange s (x.toNat + 1)) :
    exec (.ldMemVx x) s = .next { s with
      pc := s.pc + 2
      mem := s.mem.writeBytes s.i.toNat (regsThrough s x) } :=
  State.withAccess_of_inRange _ _ h

/-- An accepted `load` is of an image that fits, and writes it at 0x200 (R210). -/
theorem State.load_ok {s t : State} {bytes : List Byte} (h : s.load bytes = .ok t) :
    bytes.length ≤ maxProgramSize ∧ t = { s with mem := s.mem.writeBytes programStart bytes } := by
  unfold State.load at h
  split at h
  · cases h
  · next hle =>
    cases h
    exact ⟨Nat.le_of_not_lt hle, rfl⟩

/-! ### The fetch of bytes just stored (R213) -/

/-- Once `bytes` are written at `base`, the fetch forms its word of memory overlaid with them. -/
theorem State.fetch_of_writeBytes {m : Memory} {t : State} {base : Nat} {bytes : List Byte} (hm : m.wf)
    (hin : base + bytes.length ≤ Memory.size) (ht : t.mem = m.writeBytes base bytes) (hf : Fetchable t) :
    t.fetch = .ok (wordOfBytes (overlaid m base bytes t.pc.toNat) (overlaid m base bytes (t.pc.toNat + 1))) := by
  rw [State.fetch_eq, if_pos hf, fetchedWord, ht, Memory.read_writeBytes hm hin, Memory.read_writeBytes hm hin]

/-- Settles O53: FX55, FX33 and `load` each leave memory with their bytes written, which the fetch reads. -/
theorem storedBytesAreFetchedNext : Obligations.StoredBytesAreFetchedNext := by
  intro s t x bytes hm hf
  refine ⟨fun hin h => ?_, fun hin h => ?_, fun h => ?_⟩
  · cases h.symm.trans (exec_ldMemVx_of_inRange x hin)
    exact State.fetch_of_writeBytes hm (by rwa [length_regsThrough]) rfl hf
  · cases h.symm.trans (exec_ldBVx_of_inRange x hin)
    exact State.fetch_of_writeBytes hm hin rfl hf
  · obtain ⟨hle, rfl⟩ := State.load_ok h
    exact State.fetch_of_writeBytes hm (Nat.add_le_add_left hle programStart) rfl hf

end Sys2Proof.Machine
end

section
/-! SUPPORT. The family of 30_encoding.md: decoding the word and the bytes of an instruction. -/

namespace Sys2Proof.Laws

variable {op : Word} {c x y n : Nibble} {nn : Byte} {nnn : Addr} {i : Instr}

/-- A word whose fields select an instruction decodes to it (R404). -/
theorem decode_of_decodeFields
    (h : decodeFields (opClass op) (opX op) (opY op) (opN op) (opNN op) (opNNN op) = some i) : decode op = .ok i := by
  simp only [decode, h]

/-! ### Each form of word, by the fields that form is built of (R300, R301)

The remaining fields overlap those, so the row may not depend on them. -/

theorem decode_wordCXYN (h : ∀ nn nnn, decodeFields c x y n nn nnn = some i) : decode (wordCXYN c x y n) = .ok i :=
  decode_of_decodeFields <| by
    rw [opClass_wordCXYN, opX_wordCXYN, opY_wordCXYN, opN_wordCXYN]
    exact h _ _

theorem decode_wordCXNN (h : ∀ y n nnn, decodeFields c x y n nn nnn = some i) : decode (wordCXNN c x nn) = .ok i :=
  decode_of_decodeFields <| by
    rw [opClass_wordCXNN, opX_wordCXNN, opNN_wordCXNN]
    exact h _ _ _

theorem decode_wordCNNN (h : ∀ x y n nn, decodeFields c x y n nn nnn = some i) : decode (wordCNNN c nnn) = .ok i :=
  decode_of_decodeFields <| by
    rw [opClass_wordCNNN, opNNN_wordCNNN]
    exact h _ _ _ _

/-- Settles O1: an instruction's word has one of three forms, and the fields it is built of select the instruction's row. -/
theorem decodeOfEncode : Obligations.DecodeOfEncode := by
  intro i
  cases i with
  | cls | ret => decide
  | jp _ | call _ | ldI _ | jpV0 _ => exact decode_wordCNNN fun _ _ _ _ => rfl
  | seImm _ _ | sneImm _ _ | ldImm _ _ | addImm _ _ | rnd _ _ | skp _ | sknp _ | ldVxDT _ | ldVxK _ | ldDTVx _ | ldSTVx _
  | addIVx _ | ldFVx _ | ldBVx _ | ldMemVx _ | ldVxMem _ => exact decode_wordCXNN fun _ _ _ => rfl
  | seReg _ _ | ldReg _ _ | orReg _ _ | andReg _ _ | xorReg _ _ | addReg _ _ | subReg _ _ | shr _ _ | subnReg _ _ | shl _ _
  | sneReg _ _ | drw _ _ _ => exact decode_wordCXYN fun _ _ => rfl

/-! ### Bytes (R300; 20_memory.md R206) -/

/-- Two bytes that form the word of an instruction decode to it and the bytes after them. -/
theorem decodeBytes_of_decode {first second : Byte} (rest : List Byte) (h : decode (wordOfBytes first second) = .ok i) :
    decodeBytes (first :: second :: rest) = .ok (i, rest) := by
  simp only [decodeBytes, h]

theorem decodeBytes_of_length_lt_two {bytes : List Byte} (h : bytes.length < 2) :
    decodeBytes bytes = .error .truncated := by
  match bytes, h with
  | [], _ | [_], _ => rfl

/-- Settles O5: the two bytes form the encoded word again, which decodes by `decodeOfEncode`. -/
theorem bytesDecodeBigEndian : Obligations.BytesDecodeBigEndian := by
  refine ⟨fun i rest => decodeBytes_of_decode rest ?_, fun _ => decodeBytes_of_length_lt_two⟩
  rw [wordOfBytes_high_low]
  exact decodeOfEncode i

end Sys2Proof.Laws
end

section
/-! SUPPORT. The words that decode, by the rows of the opcode map (30_encoding.md R303, R305). -/

namespace Sys2Proof.Laws

/-! ### A word is the word of its own fields (R301) -/

theorem wordCXYN_fields (op : Word) : wordCXYN (opClass op) (opX op) (opY op) (opN op) = op :=
  word_ext (opClass_wordCXYN ..) (opX_wordCXYN ..) (opY_wordCXYN ..) (opN_wordCXYN ..)

theorem wordCXNN_fields (op : Word) : wordCXNN (opClass op) (opX op) (opNN op) = op := by
  obtain ⟨hc, hx, -, -, hnn, -⟩ := toNat_fields op
  apply BitVec.eq_of_toNat_eq
  rw [toNat_wordCXNN, hc, hx, hnn]
  omega

theorem wordCNNN_fields (op : Word) : wordCNNN (opClass op) (opNNN op) = op := by
  obtain ⟨hc, -, -, -, -, hnnn⟩ := toNat_fields op
  apply BitVec.eq_of_toNat_eq
  rw [toNat_wordCNNN, hc, hnnn]
  omega

/-! ### The word of a decoded instruction (R303) -/

/-- A nibble is the numeral it is matched against. -/
theorem nibble_eq_ofNat {n : Nibble} {k : Nat} (h : n.toNat = k) : n = BitVec.ofNat 4 k := by
  rw [← h, BitVec.ofNat_toNat, BitVec.setWidth_eq]

section
variable {op : Word} {c x y n : Nibble} {nn : Byte} {nnn : Addr} {i : Instr}

theorem encode_of_decodeClass0 (h : decodeClass0 nnn = some i) : encode i = wordCNNN 0x0 nnn := by
  unfold decodeClass0 at h
  split_ifs at h
  all_goals
    subst nnn
    cases h
    rfl

theorem encode_of_decodeClass8 (h : decodeClass8 x y n = some i) : encode i = wordCXYN 0x8 x y n := by
  unfold decodeClass8 at h
  split at h
  case h_10 => cases h
  all_goals
    next e =>
      obtain rfl := nibble_eq_ofNat e
      cases h
      rfl

theorem encode_of_decodeClassE (h : decodeClassE x nn = some i) : encode i = wordCXNN 0xE x nn := by
  unfold decodeClassE at h
  split_ifs at h
  all_goals
    subst nn
    cases h
    rfl

theorem encode_of_decodeClassF (h : decodeClassF x nn = some i) : encode i = wordCXNN 0xF x nn := by
  unfold decodeClassF at h
  split_ifs at h
  all_goals
    subst nn
    cases h
    rfl

/-- Fields that select an instruction are those of its word, in the form the word is built of. -/
theorem encode_of_decodeFields (h : decodeFields c x y n nn nnn = some i) :
    encode i = wordCXYN c x y n ∨ encode i = wordCXNN c x nn ∨ encode i = wordCNNN c nnn := by
  unfold decodeFields at h
  split at h
  case h_17 => cases h
  all_goals obtain rfl := nibble_eq_ofNat ‹c.toNat = _›
  case h_1 => exact .inr (.inr (encode_of_decodeClass0 h))
  case h_9 => exact .inl (encode_of_decodeClass8 h)
  case h_15 => exact .inr (.inl (encode_of_decodeClassE h))
  case h_16 => exact .inr (.inl (encode_of_decodeClassF h))
  case h_6 | h_10 =>
    split_ifs at h
    subst n
    cases h
    exact .inl rfl
  case h_14 =>
    cases h
    exact .inl rfl
  case h_4 | h_5 | h_7 | h_8 | h_13 =>
    cases h
    exact .inr (.inl rfl)
  case h_2 | h_3 | h_11 | h_12 =>
    cases h
    exact .inr (.inr rfl)

theorem encode_of_decode (h : decode op = .ok i) : encode i = op := by
  unfold decode at h
  split at h
  · next hd =>
    cases h
    obtain e | e | e := encode_of_decodeFields hd
    · exact e.trans (wordCXYN_fields op)
    · exact e.trans (wordCXNN_fields op)
    · exact e.trans (wordCNNN_fields op)
  · cases h

end

/-! ### The rows of the opcode map (R303) -/

open SelectsRow in
/-- The family of Laws/PerInstr.lean, over every instruction. -/
theorem selectsRow_encode (i : Instr) : selectsRow (encode i) (rowMask i, rowMatch i) = true := by
  cases i
  exacts [cls, ret, jp _, call _, seImm _ _, sneImm _ _, seReg _ _, ldImm _ _, addImm _ _, ldReg _ _, orReg _ _, andReg _ _,
    xorReg _ _, addReg _ _, subReg _ _, shr _ _, subnReg _ _, shl _ _, sneReg _ _, ldI _, jpV0 _, rnd _ _, drw _ _ _, skp _,
    sknp _, ldVxDT _, ldVxK _, ldDTVx _, ldSTVx _, addIVx _, ldFVx _, ldBVx _, ldMemVx _, ldVxMem _]

theorem row_mem_opcodeRows (i : Instr) : (rowMask i, rowMatch i) ∈ opcodeRows := by
  cases i <;> simp [opcodeRows, rowMask, rowMatch]

theorem decode_error_or_ok (op : Word) : decode op = .error (.unknownOpcode op) ∨ ∃ i, decode op = .ok i := by
  unfold decode
  split
  · exact .inr ⟨_, rfl⟩
  · exact .inl rfl

/-- A word that selects no row is rejected (R305). -/
theorem decode_of_no_row {op : Word} (h : ∀ row ∈ opcodeRows, selectsRow op row = false) :
    decode op = .error (.unknownOpcode op) := by
  refine (decode_error_or_ok op).resolve_right fun ⟨i, hd⟩ => ?_
  have hsel := selectsRow_encode i
  rw [encode_of_decode hd, h _ (row_mem_opcodeRows i)] at hsel
  cases hsel

end Sys2Proof.Laws
end

section
/-! SUPPORT. The family of 40_cycle.md: what a cycle runs, the key-wait poll, and the update. -/

namespace Sys2Proof.Machine

/-! ### The cycle as equations (R400, R405, R406) -/

section
variable {s : State}

theorem step_of_running (h : Running s) : step s = s.fetchAndExecute := by
  simp only [step, State.cycle, h.1, h.2]

theorem step_of_waiting {r k : Nibble} (hf : s.fault = none) (hw : s.wait = .waiting r k) :
    step s = .next (keyWaitPoll r k s) := by
  simp only [step, State.cycle, hf, hw]

theorem State.fetch_of_fetchable (h : Fetchable s) : s.fetch = .ok (fetchedWord s) := by
  rw [State.fetch_eq, if_pos h]

theorem step_of_decode {i : Instr} (hr : Running s) (hf : Fetchable s) (hd : decode (fetchedWord s) = .ok i) :
    step s = exec i s := by
  simp only [step_of_running hr, State.fetchAndExecute, State.fetch_of_fetchable hf, hd]

theorem step_of_decode_error {e : DecodeReject} (hr : Running s) (hf : Fetchable s)
    (hd : decode (fetchedWord s) = .error e) :
    step s = .next (failed s (.unknownOpcode (fetchedWord s)) (some (fetchedWord s))) := by
  simp only [step_of_running hr, State.fetchAndExecute, State.fetch_of_fetchable hf, hd, State.raise_eq]

theorem step_of_not_fetchable (hr : Running s) (hf : ¬ Fetchable s) :
    step s = .next (failed s (.memoryOutOfBounds (max s.pc.toNat 0x1000)) none) := by
  simp only [step_of_running hr, State.fetchAndExecute, State.fetch_eq, if_neg hf, State.raise_eq]

end

/-- Settles O7: the fetch and the decoder answer, so the cycle is the dispatch. -/
theorem stepRunsDecoded : Obligations.StepRunsDecoded := fun _ _ => step_of_decode

/-- Settles O8: the fetch answers `fetchedWord`, and appending two bytes is the shift and the or. -/
theorem fetchIsBigEndian : Obligations.FetchIsBigEndian :=
  fun _ h => ⟨_, State.fetch_of_fetchable h, BitVec.toNat_append ..⟩

/-- Settles O10: the decoder rejects a word of no row, and the cycle raises what it rejects. -/
theorem unknownOpcodeFaults : Obligations.UnknownOpcodeFaults :=
  fun _ hr hf h => step_of_decode_error hr hf (Laws.decode_of_no_row h)

/-! ### Every block that is not faulted has a next state (R1008) -/

theorem State.withAccess_answers (s : State) (base count : Nat) (op : Word) (body : State) :
    ∃ t, s.withAccess base count op body = .next t := by
  unfold State.withAccess
  split <;> exact ⟨_, rfl⟩

/-- No instruction stops the machine: what fails, fails with a next state. -/
theorem exec_answers (i : Instr) (s : State) : ∃ t, exec i s = .next t := by
  cases i with
  | drw _ _ _ | ldBVx _ | ldMemVx _ | ldVxMem _ => exact State.withAccess_answers ..
  | ret | call _ | skp _ | sknp _ | ldVxK _ =>
    simp only [exec, execRet, execCall, execSkp, execSknp, execLdVxK]
    split <;> exact ⟨_, rfl⟩
  | _ => exact ⟨_, rfl⟩

theorem step_answers {s : State} (hf : s.fault = none) : ∃ t, step s = .next t := by
  cases hw : s.wait with
  | waiting r k => exact ⟨_, step_of_waiting hf hw⟩
  | normal =>
    by_cases hp : Fetchable s
    · obtain hd | ⟨i, hd⟩ := Laws.decode_error_or_ok (fetchedWord s)
      · exact ⟨_, step_of_decode_error ⟨hf, hw⟩ hp hd⟩
      · obtain ⟨t, ht⟩ := exec_answers i s
        exact ⟨t, (step_of_decode ⟨hf, hw⟩ hp hd).trans ht⟩
    · exact ⟨_, step_of_not_fetchable ⟨hf, hw⟩ hp⟩

/-- Settles O12: no instruction stops without a next state, and neither the poll nor a failing fetch or decode does. -/
theorem unfaultedBlockSteps : Obligations.UnfaultedBlockSteps := ⟨exec_answers, fun _ => step_answers⟩

/-! ### `PC` after an ordinary instruction (R107) -/

/-- An instruction that does not move `PC` fails or leaves `PC` past its word. -/
theorem exec_pc_of_not_movesPC {i : Instr} {s t : State} (hi : ¬ MovesPC i) (h : exec i s = .next t) :
    (∃ kind op, t = failed s kind op) ∨ t.pc = s.pc + 2 := by
  cases i with
  | jp _ | call _ | ret | jpV0 _ | seImm _ _ | sneImm _ _ | seReg _ _ | sneReg _ _ | skp _ | sknp _ | ldVxK _ =>
    exact absurd trivial hi
  | drw _ _ _ | ldBVx _ | ldMemVx _ | ldVxMem _ =>
    obtain ⟨kind, rfl⟩ | rfl := State.withAccess_cases h
    · exact .inl ⟨kind, _, rfl⟩
    · exact .inr (by simp)
  | _ =>
    cases h
    exact .inr rfl

/-- Settles O14: the only other outcome is a failure, which sets `fault`. -/
theorem ordinaryInstructionAdvances : Obligations.OrdinaryInstructionAdvances := by
  intro i s t hi _ h ht
  refine (exec_pc_of_not_movesPC hi h).resolve_left ?_
  rintro ⟨kind, op, rfl⟩
  cases ht

/-! ### The key-wait poll (R406, R804) -/

section
variable {s : State} {r k : Nibble}

theorem keyWaitPoll_of_held (h : s.key k = true) : keyWaitPoll r k s = s := if_pos h

theorem keyWaitPoll_of_released (h : s.key k = false) :
    keyWaitPoll r k s = { s.setV r (k.setWidth 8) with wait := .normal } := by
  simp [keyWaitPoll, h]

@[simp] theorem keyWaitPoll_dt : (keyWaitPoll r k s).dt = s.dt := by
  unfold keyWaitPoll
  split <;> rfl

@[simp] theorem keyWaitPoll_st : (keyWaitPoll r k s).st = s.st := by
  unfold keyWaitPoll
  split <;> rfl

theorem keyWaitPoll_with_mem (m : Memory) :
    keyWaitPoll r k { s with mem := m } = { keyWaitPoll r k s with mem := m } := by
  cases hk : s.key k with
  | true => rw [keyWaitPoll_of_held hk, keyWaitPoll_of_held (s := { s with mem := m }) hk]
  | false =>
    rw [keyWaitPoll_of_released hk, keyWaitPoll_of_released (s := { s with mem := m }) hk]
    rfl

theorem step_of_held (hf : s.fault = none) (hw : s.wait = .waiting r k) (hk : s.key k = true) : step s = .next s := by
  rw [step_of_waiting hf hw, keyWaitPoll_of_held hk]

end

/-- Settles O44: the cycle is the poll, which reads the captured key alone. -/
theorem waitingCyclePolls : Obligations.WaitingCyclePolls := by
  intro s r k hf hw
  refine ⟨step_of_held hf hw, fun hk => ⟨keyWaitPoll r k s, step_of_waiting hf hw, ?_, ?_, ?_, fun m => ?_⟩⟩
  · have hlt := k.isLt
    rw [keyWaitPoll_of_released hk]
    show ((s.setV r _).v r).toNat = _
    rw [State.v_setV_self, BitVec.toNat_setWidth]
    omega
  · rw [keyWaitPoll_of_released hk]
  · rw [keyWaitPoll_of_released hk]
    intro c hc
    obtain ⟨hv, hwait⟩ := not_or.mp hc
    cases c with
    | wait => exact absurd rfl hwait
    | v x => exact Frame.setV s r _ _ hv
    | _ => rfl
  · exact (step_of_waiting (s := { s with mem := m }) hf hw).trans (congrArg _ (keyWaitPoll_with_mem m))

/-! ### The timers (R408, R413) -/

theorem decayed_toNat (t : Byte) : (decayed t).toNat = if t.toNat > 0 then t.toNat - 1 else 0 := by
  unfold decayed
  split
  · bv_omega
  · omega

theorem Frame.timerDecay (s : State) : Frame s s.timerDecay (fun c => c = .dt ∨ c = .st) := by
  intro c hc
  cases c with
  | dt | st => simp at hc
  | _ => rfl

/-- Settles O54: both timers go through `decayed`. -/
theorem decayTakesOneFromEachTimer : Obligations.DecayTakesOneFromEachTimer :=
  fun s => ⟨decayed_toNat s.dt, decayed_toNat s.st, Frame.timerDecay s⟩

/-- A step that does not dispatch an instruction leaves both timers. -/
theorem step_keeps_timers_or_dispatches {s t : State} (h : step s = .next t) :
    (t.dt = s.dt ∧ t.st = s.st) ∨ ∃ i, decode (fetchedWord s) = .ok i ∧ exec i s = .next t := by
  obtain ⟨-, ⟨r, k, -, rfl⟩ | ⟨-, -, rfl⟩ | ⟨-, -, rfl⟩ | ⟨-, -, i, hd, he⟩⟩ := step_cases h
  · exact .inl ⟨keyWaitPoll_dt, keyWaitPoll_st⟩
  · exact .inl ⟨rfl, rfl⟩
  · exact .inl ⟨rfl, rfl⟩
  · exact .inr ⟨i, hd, he⟩

/-- Settles O21: a step that changes a timer dispatched the one instruction that writes it. -/
theorem timersWrittenOnlyByTransfers : Obligations.TimersWrittenOnlyByTransfers := by
  refine ⟨fun s t h => ?_, fun s t bytes h => ?_, fun _ _ _ => ⟨rfl, rfl⟩⟩
  · obtain ⟨hdt, hst⟩ | ⟨i, hd, he⟩ := step_keeps_timers_or_dispatches h
    · exact ⟨fun hne => absurd hdt hne, fun hne => absurd hst hne⟩
    · refine ⟨fun hne => ?_, fun hne => ?_⟩
      · obtain ⟨x, rfl⟩ := (exec_writesFields he).of_dt_ne hne
        cases he
        exact ⟨x, hd, rfl⟩
      · obtain ⟨x, rfl⟩ := (exec_writesFields he).of_st_ne hne
        cases he
        exact ⟨x, hd, rfl⟩
  · obtain ⟨-, rfl⟩ := State.load_ok h
    exact ⟨rfl, rfl⟩

/-! ### The update (R407, R410) -/

/-- Cycles after a first one that does not fail. -/
theorem State.runCycles_succ {n : Nat} {s t : State} (h : step s = .next t) (ht : t.fault = none) :
    State.runCycles (n + 1) s = State.runCycles n t := by
  simp [State.runCycles, h, ht]

/-- A cycle that fails is the last. -/
theorem State.runCycles_succ_of_failing {n : Nat} {s t : State} (h : step s = .next t) (ht : t.fault ≠ none) :
    State.runCycles (n + 1) s = .next t := by
  simp [State.runCycles, h, Option.isSome_iff_ne_none.mpr ht]

theorem State.update_of_completed {n : Nat} {s t : State} (hf : s.fault = none) (h : State.runCycles n s = .next t)
    (ht : t.fault = none) : s.update n = .next t.timerDecay := by
  simp [State.update, hf, h, ht]

theorem State.update_of_failing {n : Nat} {s t : State} (hf : s.fault = none) (h : State.runCycles n s = .next t)
    (ht : t.fault ≠ none) : s.update n = .next t := by
  simp [State.update, hf, h, Option.isSome_iff_ne_none.mpr ht]

/-- A state that every cycle leaves as it is. -/
theorem State.runCycles_of_step_self {s : State} (hf : s.fault = none) (hs : step s = .next s) (n : Nat) :
    State.runCycles n s = .next s := by
  induction n with
  | zero => rfl
  | succ n ih => rw [State.runCycles_succ hs hf, ih]

/-- Settles O45: each cycle leaves the state as it is, so the decay is all. -/
theorem heldKeyUpdateOnlyDecays : Obligations.HeldKeyUpdateOnlyDecays :=
  fun _ _ _ n hf hw hk =>
    State.update_of_completed hf (State.runCycles_of_step_self hf (step_of_held hf hw hk) n) hf

/-- The cycles of an update are a run of the machine, or a run, shorter than their count, that its next step ends with a
failure. -/
theorem State.runCycles_cases (n : Nat) {s : State} (hf : s.fault = none) :
    ∃ t, State.runCycles n s = .next t ∧
      ((t.fault = none ∧ Sys2Proof.core.run n s = .next t) ∨
       (t.fault ≠ none ∧ ∃ k < n, ∃ u, Sys2Proof.core.run k s = .next u ∧ u.fault = none ∧ step u = .next t)) := by
  induction n generalizing s with
  | zero => exact ⟨s, rfl, .inl ⟨hf, rfl⟩⟩
  | succ n ih =>
    obtain ⟨s', hs⟩ := step_answers hf
    by_cases hf' : s'.fault = none
    · obtain ⟨t, ht, hcases⟩ := ih hf'
      refine ⟨t, (State.runCycles_succ hs hf').trans ht, hcases.imp ?_ ?_⟩
      · exact fun ⟨htf, hrun⟩ => ⟨htf, (core_run_succ hs).trans hrun⟩
      · exact fun ⟨htf, k, hk, u, hrun, hu⟩ =>
          ⟨htf, k + 1, Nat.succ_lt_succ hk, u, (core_run_succ hs).trans hrun, hu⟩
    · exact ⟨s', State.runCycles_succ_of_failing hs hf', .inr ⟨hf', 0, n.succ_pos, s, rfl, hf, hs⟩⟩

/-- Settles O55: the cycles by `State.runCycles_cases`, and the decay only when none of them failed. -/
theorem updateRunsCyclesThenDecays : Obligations.UpdateRunsCyclesThenDecays := by
  intro n s hf
  obtain ⟨t, ht, ⟨htf, hrun⟩ | ⟨htf, hlast⟩⟩ := State.runCycles_cases n hf
  · exact ⟨_, State.update_of_completed hf ht htf, .inl ⟨htf, t, hrun, htf, rfl⟩⟩
  · exact ⟨t, State.update_of_failing hf ht htf, .inr ⟨htf, hlast⟩⟩

/-! ### A word placed at the fetch address (R206, R213) -/

theorem highByte_ofNat (n : Nat) : highByte (BitVec.ofNat 16 n) = BitVec.ofNat 8 (n / 256) := by
  apply BitVec.eq_of_toNat_eq
  simp only [highByte, BitVec.extractLsb'_toNat, BitVec.toNat_ofNat, Nat.shiftRight_eq_div_pow]
  omega

theorem lowByte_ofNat (n : Nat) : lowByte (BitVec.ofNat 16 n) = BitVec.ofNat 8 n := by
  apply BitVec.eq_of_toNat_eq
  simp only [lowByte, BitVec.extractLsb'_toNat, BitVec.toNat_ofNat, Nat.shiftRight_zero]
  omega

/-- The host's view of the decoder is the decoder, of the word whose number it is given. -/
theorem decode_of_decodeTableWord {w : Nat} {i : Instr} (h : decodeTableWord 16 w = some i) :
    decode (BitVec.ofNat 16 (w % 2 ^ 16)) = .ok i := by
  rw [decodeTableWord, ← highByte_ofNat, ← lowByte_ofNat] at h
  simp only [decodeBytes, Laws.wordOfBytes_high_low] at h
  obtain hd | ⟨j, hd⟩ := Laws.decode_error_or_ok (BitVec.ofNat 16 (w % 2 ^ 16))
  · rw [hd] at h
    cases h
  · rw [hd] at h ⊢
    cases h
    rfl

theorem State.placeWord_fetchable (s : State) (op : Word) : Fetchable (s.placeWord op) := by
  by_cases h : s.pc.toNat < 0xFFF <;> simp [Fetchable, State.placeWord, h]

theorem State.fetchedWord_placeWord {s : State} (hm : s.mem.wf) (op : Word) : fetchedWord (s.placeWord op) = op := by
  have hf := s.placeWord_fetchable op
  have hmem : (s.placeWord op).mem = s.mem.writeBytes (s.placeWord op).pc.toNat [highByte op, lowByte op] := rfl
  have hin : (s.placeWord op).pc.toNat + 2 ≤ Memory.size := Nat.succ_le_succ hf
  have h0 := Memory.read_writeBytes_inside hm (bs := [highByte op, lowByte op]) hin (k := 0) Nat.two_pos
  have h1 := Memory.read_writeBytes_inside hm (bs := [highByte op, lowByte op]) hin (k := 1) Nat.one_lt_two
  rw [← hmem] at h0 h1
  exact (congrArg₂ wordOfBytes h0 h1).trans (Laws.wordOfBytes_high_low op)

/-- Settles O59: the placed bytes are the fetched ones, in a block that runs. -/
theorem placedWordRunsNext : Obligations.PlacedWordRunsNext := by
  intro s w i hm h
  refine step_of_decode ⟨rfl, rfl⟩ (s.placeWord_fetchable _) ?_
  rw [State.withFetchWord, State.fetchedWord_placeWord hm]
  exact decode_of_decodeTableWord h

end Sys2Proof.Machine
end

section
/-! SUPPORT. The family of 41_control.md: the jumps, the compare-and-skip instructions, and the invariant of a step. -/

namespace Sys2Proof.Machine

/-! ### Jumps and skips (R500, R503 to R509) -/

/-- The target of BNNN is the whole sum: it cannot carry out of bit 15 (R507). -/
theorem toNat_regOperand16_add_addrOperand (s : State) (x : Nibble) (nnn : Addr) :
    (regOperand16 s x + addrOperand nnn).toNat = (s.v x).toNat + nnn.toNat := by
  have hv := (s.v x).isLt
  have hn := nnn.isLt
  simp only [regOperand16, BitVec.toNat_add, BitVec.toNat_setWidth, addrOperand_toNat]
  omega

/-- A taken skip passes the word after the instruction's own (R509). -/
theorem State.pc_skipIf_advance (s : State) (c : Bool) :
    (s.advance.skipIf c).pc = if c then s.pc + 4 else s.pc + 2 := by
  cases c
  · rfl
  · exact BitVec.add_assoc s.pc 2 2

theorem Frame.jump_advance (s : State) (a : Word) : Frame s (s.advance.jump a) (· = .pc) :=
  (Frame.advance s).trans (Frame.jump _ a)

theorem Frame.skipIf_advance (s : State) (c : Bool) : Frame s (s.advance.skipIf c) (· = .pc) :=
  (Frame.advance s).trans (Frame.skipIf _ c)

/-- Settles O25: both instructions are a jump, and neither target is reduced. -/
theorem jumpsSetPC : Obligations.JumpsSetPC := fun s nnn =>
  ⟨⟨_, rfl, addrOperand_toNat nnn, Frame.jump_advance s _⟩,
    ⟨_, rfl, toNat_regOperand16_add_addrOperand s 0x0 nnn, Frame.jump_advance s _⟩⟩

/-- Settles O28: each instruction is a skip on the comparison, or on its negation. -/
theorem comparesSkipOneWord : Obligations.ComparesSkipOneWord := by
  intro s x y nn
  have skip_of_eq (a b : Byte) : (s.advance.skipIf (a == b)).pc = if a = b then s.pc + 4 else s.pc + 2 := by
    simp only [State.pc_skipIf_advance, beq_iff_eq]
  have skip_of_ne (a b : Byte) : (s.advance.skipIf (a != b)).pc = if a = b then s.pc + 2 else s.pc + 4 := by
    simp only [State.pc_skipIf_advance, bne_iff_ne, ite_not]
  exact ⟨⟨_, rfl, skip_of_eq _ _, Frame.skipIf_advance s _⟩, ⟨_, rfl, skip_of_ne _ _, Frame.skipIf_advance s _⟩,
    ⟨_, rfl, skip_of_eq _ _, Frame.skipIf_advance s _⟩, ⟨_, rfl, skip_of_ne _ _, Frame.skipIf_advance s _⟩⟩

/-! ### What an instruction can leave in `PC`, in the stack and in memory (R107, R502, R205) -/

section
variable {i : Instr} {s t : State}

/-- The values of R107's table: A for a failure and a stalled FX0A, A + 2, A + 4 for a taken skip, a target of at most 0x10FE,
a stack entry. -/
theorem exec_pc_cases (h : exec i s = .next t) :
    t.pc = s.pc ∨ t.pc = s.pc + 2 ∨ t.pc = s.pc + 4 ∨ t.pc.toNat ≤ 0x10FE ∨ ∃ k, t.pc = s.stack.get k := by
  have pc_skipIf (c : Bool) : (s.advance.skipIf c).pc = s.pc + 2 ∨ (s.advance.skipIf c).pc = s.pc + 4 := by
    rw [State.pc_skipIf_advance]
    cases c <;> simp
  have addrOperand_le (nnn : Addr) : (addrOperand nnn).toNat ≤ 0x10FE :=
    (addrOperand_toNat nnn).trans_le (nnn.isLt.le.trans (by decide))
  cases i with
  | seImm _ _ | sneImm _ _ | seReg _ _ | sneReg _ _ =>
    cases h
    exact .inr ((pc_skipIf _).imp_right .inl)
  | skp x | sknp x =>
    simp only [exec, execSkp, execSknp] at h
    split at h <;> cases h
    · exact .inr ((pc_skipIf _).imp_right .inl)
    · exact .inl rfl
  | jp nnn =>
    cases h
    exact .inr (.inr (.inr (.inl (addrOperand_le nnn))))
  | jpV0 nnn =>
    cases h
    have hv := (s.v 0x0).isLt
    have hn := nnn.isLt
    exact .inr (.inr (.inr (.inl ((toNat_regOperand16_add_addrOperand s 0x0 nnn).trans_le (by omega)))))
  | call nnn =>
    by_cases lt : s.sp.val < 16
    · cases h.symm.trans (exec_call_of_room nnn lt)
      exact .inr (.inr (.inr (.inl (addrOperand_le nnn))))
    · cases h.symm.trans (exec_call_of_full nnn (by omega))
      exact .inl rfl
  | ret =>
    cases hk : s.sp.val with
    | zero =>
      cases h.symm.trans (exec_ret_of_empty hk)
      exact .inl rfl
    | succ k =>
      have lt : k < 16 := by omega
      cases h.symm.trans (exec_ret_of_nonempty hk lt)
      exact .inr (.inr (.inr (.inr ⟨⟨k, lt⟩, rfl⟩)))
  | ldVxK x =>
    simp only [exec, execLdVxK] at h
    split at h <;> cases h
    · exact .inl (BitVec.add_sub_cancel s.pc 2)
    · exact .inr (.inl rfl)
  | _ =>
    obtain ⟨kind, op, rfl⟩ | hpc := exec_pc_of_not_movesPC id h
    · exact .inl rfl
    · exact .inr (.inl hpc)

/-- The stack is left alone, or A + 2 is pushed (R502). -/
theorem exec_stack_cases (h : exec i s = .next t) :
    t.stack = s.stack ∨ ∃ lt : s.sp.val < 16, t.stack = s.stack.set s.sp.val (s.pc + 2) lt := by
  refine or_iff_not_imp_left.mpr fun hne => ?_
  obtain ⟨nnn, rfl⟩ := (exec_writesFields h).of_stack_ne hne
  by_cases lt : s.sp.val < 16
  · cases h.symm.trans (exec_call_of_room nnn lt)
    exact ⟨lt, rfl⟩
  · cases h.symm.trans (exec_call_of_full nnn (by omega))
    exact absurd rfl hne

/-- Memory is left alone, or bytes that all exist are written from `I` up (R205). -/
theorem exec_mem_cases (h : exec i s = .next t) :
    t.mem = s.mem ∨ ∃ bs : List Byte, InRange s bs.length ∧ t.mem = s.mem.writeBytes s.i.toNat bs := by
  refine or_iff_not_imp_left.mpr fun hne => ?_
  obtain ⟨x, rfl | rfl⟩ := (exec_writesFields h).of_mem_ne hne
  · by_cases hin : InRange s 3
    · cases h.symm.trans (exec_ldBVx_of_inRange x hin)
      exact ⟨decimalDigits (s.v x), hin, rfl⟩
    · cases h.symm.trans (State.withAccess_of_not_inRange _ _ (by decide) hin)
      exact absurd rfl hne
  · by_cases hin : InRange s (x.toNat + 1)
    · cases h.symm.trans (exec_ldMemVx_of_inRange x hin)
      exact ⟨_, by rwa [length_regsThrough], rfl⟩
    · cases h.symm.trans (State.withAccess_of_not_inRange _ _ (Nat.succ_ne_zero _) hin)
      exact absurd rfl hne

/-! ### The invariant, piece by piece (R107, R202, R502, R1008) -/

theorem exec_keeps_mem_wf (hm : s.mem.wf) (h : exec i s = .next t) : t.mem.wf := by
  obtain e | ⟨bs, hin, e⟩ := exec_mem_cases h
  · rwa [e]
  · rw [e]
    exact Memory.wf_writeBytes hm hin

/-- An instruction that was fetched lies at 0xFFE at most, so A + 4 is at most 0x1002 and a pushed A + 2 at most 0x1000. -/
theorem exec_keeps_bounded (hb : Bounded s) (hf : Fetchable s) (h : exec i s = .next t) : Bounded t := by
  obtain ⟨hpc, hstack⟩ := hb
  refine ⟨?_, fun k => ?_⟩
  · obtain e | e | e | hle | ⟨k, e⟩ := exec_pc_cases h
    · rwa [e]
    · bv_omega
    · bv_omega
    · exact hle
    · exact e ▸ (hstack k).trans (by decide)
  · obtain e | ⟨lt, e⟩ := exec_stack_cases h
    · exact e ▸ hstack k
    · by_cases hk : s.sp.val = k.val
      · simp only [e, Vector.get_eq_getElem, hk, Vector.getElem_set_self]
        bv_omega
      · rw [e, Vector.get_eq_getElem, Vector.getElem_set_ne _ _ hk]
        exact hstack k

/-- An instruction that leaves `fault` alone left it unset (R411). -/
theorem exec_faultHere (hf : s.fault = none) (h : exec i s = .next t) : FaultHere t := by
  intro r hr
  obtain ⟨kind, rfl, hkind⟩ | ⟨e, -⟩ := exec_cases h
  · cases hr
    exact ⟨rfl, hkind⟩
  · cases hr.symm.trans (e.trans hf)

theorem Inv.exec (hi : Inv s) (hn : s.fault = none) (hf : Fetchable s) (h : exec i s = .next t) : Inv t :=
  ⟨exec_keeps_mem_wf hi.mem_wf h, exec_keeps_bounded hi.bounded hf h, exec_faultHere hn h⟩

/-- Recording an error of the block's own at `PC` keeps the invariant (R1007, R1008). -/
theorem Inv.failed (hi : Inv s) {kind : ErrorKind} (op : Option Word) (hkind : ∀ n, kind ≠ .romTooLarge n) :
    Inv (failed s kind op) := by
  refine ⟨hi.mem_wf, ⟨hi.bounded.pc_le, hi.bounded.stack_le⟩, fun r hr => ?_⟩
  cases hr
  exact ⟨rfl, hkind⟩

/-- The poll writes a register and the wait at most (R804), of which the invariant does not speak. -/
theorem Inv.keyWaitPoll (hi : Inv s) (r k : Nibble) : Inv (keyWaitPoll r k s) := by
  cases hk : s.key k with
  | true => rwa [keyWaitPoll_of_held hk]
  | false =>
    rw [keyWaitPoll_of_released hk]
    exact ⟨hi.mem_wf, ⟨hi.bounded.pc_le, hi.bounded.stack_le⟩, hi.fault_here⟩

end

/-- Settles O18: the poll, the two failures of the cycle itself, and the dispatch each keep the invariant. -/
theorem stepKeepsInv : Obligations.StepKeepsInv := by
  intro s t hi h
  obtain ⟨hn, ⟨r, k, -, rfl⟩ | ⟨-, -, rfl⟩ | ⟨-, -, rfl⟩ | ⟨-, hf, i, -, he⟩⟩ := step_cases h
  · exact hi.keyWaitPoll r k
  · exact hi.failed none (by simp)
  · exact hi.failed (some (fetchedWord s)) (by simp)
  · exact hi.exec hn hf he

end Sys2Proof.Machine
end

section
/-! SUPPORT. The family of 42_alu.md: the register loads, and the arithmetic, logic and shifts with their flags. -/

namespace Sys2Proof.Machine

/-! ### The two shapes of an ALU instruction: a result alone (R600 to R605), and a result with a flag (R609) -/

theorem Frame.setV_advance (s : State) (x : Nibble) (b : Byte) :
    Frame s (s.advance.setV x b) (fun c => c = .pc ∨ c = .v x) :=
  (Frame.advance s).seq (Frame.setV _ x b)

theorem Frame.setResultAndFlag_advance (s : State) (x : Nibble) (b : Byte) (f : Bool) :
    Frame s (s.advance.setResultAndFlag x b f) (fun c => c = .pc ∨ c = .v x ∨ c = .v regVF) :=
  (Frame.advance s).seq (Frame.setResultAndFlag _ x b f)

/-- The flag is the last write, whatever the destination (R609). -/
theorem State.v_setResultAndFlag_regVF (s : State) (x : Nibble) (b : Byte) (f : Bool) :
    (s.setResultAndFlag x b f).v regVF = if f then 1 else 0 := by
  rw [State.v_setResultAndFlag, if_pos rfl]

/-- A destination other than VF keeps the result. -/
theorem State.v_setResultAndFlag_of_ne (s : State) {x : Nibble} (b : Byte) (f : Bool) (hx : x ≠ regVF) :
    (s.setResultAndFlag x b f).v x = b := by
  rw [State.v_setResultAndFlag, if_neg hx, if_pos rfl]

/-! ### The flags and the results as numbers (R606 to R608, R612, R614) -/

section
variable (a b : Byte)

theorem flag_carryOut : (if carryOut a b then 1 else 0 : Byte) = if a.toNat + b.toNat > 255 then 1 else 0 := by
  simp only [carryOut, decide_eq_true_eq]

theorem flag_noBorrow : (if noBorrow a b then 1 else 0 : Byte) = if a.toNat ≥ b.toNat then 1 else 0 := by
  simp only [noBorrow, decide_eq_true_eq]

/-- Modulo 256 a borrow adds 256 to the minuend (R606). -/
theorem toNat_sub_eq_borrowed : (a - b).toNat = (a.toNat + 256 - b.toNat) % 256 := by
  have hb := b.isLt
  rw [BitVec.toNat_sub]
  omega

/-- A flag that is bit `k` of a byte, as a number. -/
theorem toNat_flag_getLsbD (k : Nat) : (if a.getLsbD k then 1 else 0 : Byte).toNat = a.toNat / 2 ^ k % 2 := by
  rw [← Nat.toNat_testBit, BitVec.testBit_toNat]
  cases a.getLsbD k <;> rfl

theorem toNat_flag_shiftOutRight : (if shiftOutRight a then 1 else 0 : Byte).toNat = a.toNat % 2 := by
  rw [shiftOutRight, toNat_flag_getLsbD, Nat.pow_zero, Nat.div_one]

/-- Bit 7 is the top bit, so dividing by 128 leaves it alone. -/
theorem toNat_flag_shiftOutLeft : (if shiftOutLeft a then 1 else 0 : Byte).toNat = a.toNat / 128 := by
  have ha := a.isLt
  rw [shiftOutLeft, toNat_flag_getLsbD]
  omega

theorem toNat_shiftRight_one : (a >>> 1).toNat = a.toNat / 2 := by
  rw [BitVec.toNat_ushiftRight, Nat.shiftRight_eq_div_pow, Nat.pow_one]

theorem toNat_shiftLeft_one : (a <<< 1).toNat = a.toNat * 2 % 256 := by
  rw [BitVec.toNat_shiftLeft, Nat.shiftLeft_eq, Nat.pow_one]

end

/-! ### Instructions that write a result alone -/

/-- Settles O29: each is one register write after the advance, of the immediate, `Vy` or `DT`. -/
theorem loadsSetRegister : Obligations.LoadsSetRegister := fun s x _ _ =>
  ⟨⟨_, rfl, State.v_setV_self _ x _, rfl, Frame.setV_advance s x _⟩,
    ⟨_, rfl, State.v_setV_self _ x _, rfl, Frame.setV_advance s x _⟩,
    ⟨_, rfl, State.v_setV_self _ x _, rfl, Frame.setV_advance s x _⟩⟩

/-- Settles O30: one register write of the byte sum, and that sum wraps modulo 256. -/
theorem addImmediateWraps : Obligations.AddImmediateWraps := by
  intro s x nn
  refine ⟨_, rfl, ?_, rfl, Frame.setV_advance s x _⟩
  rw [State.v_setV_self, BitVec.toNat_add]

/-- Settles O31: one register write each, of a word whose bits are those of the operation. -/
theorem logicIsBitwise : Obligations.LogicIsBitwise := by
  intro s x y
  refine ⟨⟨_, rfl, fun k => ?_, rfl, Frame.setV_advance s x _⟩, ⟨_, rfl, fun k => ?_, rfl, Frame.setV_advance s x _⟩,
    ⟨_, rfl, fun k => ?_, rfl, Frame.setV_advance s x _⟩⟩
  · rw [State.v_setV_self, BitVec.getLsbD_or]
  · rw [State.v_setV_self, BitVec.getLsbD_and]
  · rw [State.v_setV_self, BitVec.getLsbD_xor]

/-! ### Instructions that write a result and a flag -/

/-- Settles O32: the carry of 8XY4 is its last write, and 7XNN writes a register that is not VF. -/
theorem carryLaw : Obligations.CarryLaw := by
  intro s x y nn hx
  refine ⟨⟨_, rfl, ?flag, ?result, rfl, Frame.setResultAndFlag_advance s x _ _⟩, _, rfl, State.v_setV_ne _ _ hx.symm⟩
  case flag => rw [State.v_setResultAndFlag_regVF, flag_carryOut]
  case result => rw [State.v_setResultAndFlag_of_ne _ _ _ hx, BitVec.toNat_add]

/-- A difference written with its no-borrow flag is the one R608 gives, for either order of the operands. -/
theorem State.setResultAndFlag_sub (s : State) {x : Nibble} (a b : Byte) (hx : x ≠ regVF) :
    let t := s.setResultAndFlag x (a - b) (noBorrow a b)
    t.v regVF = (if a.toNat ≥ b.toNat then 1 else 0) ∧ (t.v x).toNat = (a.toNat + 256 - b.toNat) % 256 := by
  constructor
  · rw [State.v_setResultAndFlag_regVF, flag_noBorrow]
  · rw [State.v_setResultAndFlag_of_ne _ _ _ hx, toNat_sub_eq_borrowed]

/-- Settles O33: both instructions write a difference with its no-borrow flag, the operands exchanged. -/
theorem borrowLaw : Obligations.BorrowLaw := by
  intro s x y hx
  obtain ⟨flag, result⟩ := s.advance.setResultAndFlag_sub (s.v x) (s.v y) hx
  obtain ⟨flag', result'⟩ := s.advance.setResultAndFlag_sub (s.v y) (s.v x) hx
  exact ⟨⟨_, rfl, flag, result, rfl, Frame.setResultAndFlag_advance s x _ _⟩,
    ⟨_, rfl, flag', result', rfl, Frame.setResultAndFlag_advance s x _ _⟩⟩

/-- Settles O34: the result and the bit shifted out are functions of `Vx` alone, so `y` has no part in the next state (D9). -/
theorem shiftsMoveOneBit : Obligations.ShiftsMoveOneBit := by
  intro s x y hx
  refine ⟨⟨_, rfl, ?right, ?rightOut, rfl, Frame.setResultAndFlag_advance s x _ _, fun _ => rfl⟩,
    ⟨_, rfl, ?left, ?leftOut, rfl, Frame.setResultAndFlag_advance s x _ _, fun _ => rfl⟩⟩
  case right => rw [State.v_setResultAndFlag_of_ne _ _ _ hx, toNat_shiftRight_one]
  case rightOut => rw [State.v_setResultAndFlag_regVF, toNat_flag_shiftOutRight]
  case left => rw [State.v_setResultAndFlag_of_ne _ _ _ hx, toNat_shiftLeft_one]
  case leftOut => rw [State.v_setResultAndFlag_regVF, toNat_flag_shiftOutLeft]

end Sys2Proof.Machine
end

section
/-! SUPPORT. The family of 43_display.md: the clear, and what a drawn sprite does to the pixels and to VF. -/

namespace Sys2Proof.Machine

/-- A new display changes pixels alone. -/
theorem Frame.withDisp (s : State) (d : Display) : Frame s { s with disp := d } (fun c => ∃ x y, c = .pixel x y) := by
  intro c hc
  cases c with
  | pixel x y => exact absurd ⟨x, y, rfl⟩ hc
  | _ => rfl

/-- Settles O37: 00E0 is the advance and the clear display. -/
theorem clearScreenClears : Obligations.ClearScreenClears := fun s =>
  ⟨_, rfl, Display.pixel_clear, rfl, (Frame.advance s).seq (Frame.withDisp _ _)⟩

/-! ### Toggling a set of pixels (43_display.md R702 to R704) -/

/-- From canvas `c` to `c'` exactly the pixels of `S` are toggled, and a pixel of `S` that was set is a collision.
`drawColumn_toggles`, `drawRow_toggles` and `drawRows_toggles` tie it to the blitter. -/
structure Canvas.Toggles (S : Fin 64 → Fin 32 → Prop) (c c' : Canvas) : Prop where
  inside : ∀ x y, S x y → c'.disp.pixel x y = !c.disp.pixel x y
  outside : ∀ x y, ¬ S x y → c'.disp.pixel x y = c.disp.pixel x y
  collided_iff : c'.collided = true ↔ c.collided = true ∨ ∃ x y, S x y ∧ c.disp.pixel x y = true

section
variable {S T U : Fin 64 → Fin 32 → Prop} {c c' c'' : Canvas}

theorem Canvas.Toggles.of_empty (hS : ∀ x y, ¬ S x y) : Canvas.Toggles S c c :=
  ⟨fun x y h => absurd h (hS x y), fun _ _ _ => rfl, by simp [hS]⟩

/-- Toggling disjoint sets one after the other toggles their union: no pixel of the second was touched by the first. -/
theorem Canvas.Toggles.union (h : Canvas.Toggles S c c') (h' : Canvas.Toggles T c' c'')
    (disjoint : ∀ x y, S x y → ¬ T x y) (hU : ∀ x y, U x y ↔ S x y ∨ T x y) : Canvas.Toggles U c c'' := by
  have untouched (x y) (hT : T x y) : c'.disp.pixel x y = c.disp.pixel x y :=
    h.outside x y fun hS => disjoint x y hS hT
  refine ⟨fun x y hu => ?_, fun x y hu => ?_, ?_⟩
  · obtain hS | hT := (hU x y).mp hu
    · rw [h'.outside x y (disjoint x y hS), h.inside x y hS]
    · rw [h'.inside x y hT, untouched x y hT]
  · obtain ⟨hS, hT⟩ := not_or.mp (mt (hU x y).mpr hu)
    rw [h'.outside x y hT, h.outside x y hS]
  · have second : (∃ x y, T x y ∧ c'.disp.pixel x y = true) ↔ ∃ x y, T x y ∧ c.disp.pixel x y = true :=
      exists₂_congr fun x y => and_congr_right fun hT => by rw [untouched x y hT]
    rw [h'.collided_iff, h.collided_iff, second, or_assoc]
    simp only [hU, or_and_right, exists_or]

end

/-! ### The blitter toggles what the sprite bits cover -/

/-- Of the first `width` columns of a sprite row, the one of a set bit lands on column `x` (R702, R703). -/
def RowCovers (px : Nat) (b : Byte) (width : Nat) (x : Fin 64) : Prop :=
  ∃ col < width, b.getLsbD (7 - col) = true ∧ x.val = (px + col) % 64

/-- A set bit of the `count` sprite rows from `base` up, the first at row `py`, lands on pixel `(x, y)` (R702, R703). -/
def RowsCover (m : Memory) (base px py count : Nat) (x : Fin 64) (y : Fin 32) : Prop :=
  ∃ row < count, RowCovers px (m.read (base + row)) 8 x ∧ y.val = (py + row) % 32

theorem spriteCovers_iff_rowsCover (s : State) (x y n : Nibble) (px : Fin 64) (py : Fin 32) :
    SpriteCovers s x y n px py ↔ RowsCover s.mem s.i.toNat (s.v x).toNat (s.v y).toNat n.toNat px py := by
  simp only [SpriteCovers, RowsCover, RowCovers, exists_and_right, ← and_assoc]

theorem rowCovers_succ (px : Nat) (b : Byte) (k : Nat) (x : Fin 64) :
    RowCovers px b (k + 1) x ↔ RowCovers px b k x ∨ (b.getLsbD (7 - k) = true ∧ x.val = (px + k) % 64) := by
  simp only [RowCovers, Nat.exists_lt_succ_right]

theorem rowsCover_succ (m : Memory) (base px py k : Nat) (x : Fin 64) (y : Fin 32) :
    RowsCover m base px py (k + 1) x y ↔
      (RowCovers px (m.read base) 8 x ∧ y.val = py % 32) ∨ RowsCover m (base + 1) px (py + 1) k x y := by
  simp only [RowsCover, Nat.exists_lt_succ_left, Nat.add_zero, Nat.add_assoc, Nat.add_comm 1]

theorem drawColumn_toggles (px : Nat) (y : Fin 32) (b : Byte) (c : Canvas) (col : Nat) :
    Canvas.Toggles (fun x' y' => (b.getLsbD (7 - col) = true ∧ x'.val = (px + col) % 64) ∧ y' = y) c
      (drawColumn px y b c col) := by
  unfold drawColumn
  split
  · next hb =>
    have spot (x' : Fin 64) : x'.val = (px + col) % 64 ↔ x' = Fin.ofNat 64 (px + col) :=
      (Fin.ext_iff (b := Fin.ofNat 64 (px + col))).symm
    simp only [hb, true_and, spot]
    refine ⟨?_, fun x' y' h => ?_, ?_⟩
    · rintro x' y' ⟨rfl, rfl⟩
      rw [Display.pixel_toggle, if_pos ⟨rfl, rfl⟩]
    · rw [Display.pixel_toggle, if_neg h]
    · simp
  · next hb => exact .of_empty fun _ _ h => hb h.1.1

/-- The first `k` columns of a row land on `k` different pixels, since a row of the display is longer than a sprite's. -/
theorem foldl_drawColumn_toggles (px : Nat) (y : Fin 32) (b : Byte) (c : Canvas) {k : Nat} (hk : k ≤ 8) :
    Canvas.Toggles (fun x' y' => RowCovers px b k x' ∧ y' = y) c ((List.range k).foldl (drawColumn px y b) c) := by
  induction k with
  | zero => exact .of_empty fun _ _ ⟨⟨_, hcol, _⟩, _⟩ => absurd hcol (Nat.not_lt_zero _)
  | succ k ih =>
    rw [List.range_succ, List.foldl_append]
    refine (ih (Nat.le_of_succ_le hk)).union (drawColumn_toggles px y b _ k) ?_ fun x' y' => ?_
    · rintro x' y' ⟨⟨col, hcol, -, hx⟩, -⟩ ⟨⟨-, hx'⟩, -⟩
      omega
    · rw [rowCovers_succ, or_and_right]

theorem drawRow_toggles (px : Nat) (y : Fin 32) (b : Byte) (c : Canvas) :
    Canvas.Toggles (fun x' y' => RowCovers px b 8 x' ∧ y' = y) c (drawRow px y b c) :=
  foldl_drawColumn_toggles px y b c le_rfl

/-- At most 32 sprite rows land on different rows of the display. -/
theorem drawRows_toggles (m : Memory) (base px py : Nat) {count : Nat} (c : Canvas) (hcount : count ≤ 32) :
    Canvas.Toggles (RowsCover m base px py count) c (drawRows px py (m.readBytes base count) c) := by
  induction count generalizing base py c with
  | zero => exact .of_empty fun _ _ ⟨_, hrow, _⟩ => absurd hrow (Nat.not_lt_zero _)
  | succ k ih =>
    refine (drawRow_toggles px (Fin.ofNat 32 py) (m.read base) c).union
      (ih (base + 1) (py + 1) _ (Nat.le_of_succ_le hcount)) ?_ fun x y => ?_
    · rintro x y ⟨-, rfl⟩ ⟨row, hrow, -, hy⟩
      simp only [Fin.ofNat] at hy
      omega
    · rw [rowsCover_succ, Fin.ext_iff]
      rfl

/-- The sprite toggles the pixels it covers: it has fewer than 32 rows. -/
theorem drawSprite_toggles (s : State) (x y n : Nibble) :
    Canvas.Toggles (SpriteCovers s x y n) ⟨s.disp, false⟩ (drawSprite s x y n) := by
  have covers : SpriteCovers s x y n = RowsCover s.mem s.i.toNat (s.v x).toNat (s.v y).toNat n.toNat :=
    funext₂ fun px py => propext (spriteCovers_iff_rowsCover s x y n px py)
  have hn : n.toNat ≤ 32 := n.isLt.le.trans (by decide)
  exact covers ▸ drawRows_toggles s.mem _ _ _ _ hn

/-! ### DXYN with its rows in range, or none -/

/-- The access check of DXYN passes, so its effect happens whole (R702). -/
theorem exec_drw_of_inRange {s : State} (x y : Nibble) {n : Nibble} (h : n = 0 ∨ InRange s n.toNat) :
    exec (.drw x y n) s = .next
      (State.setVF { s.advance with disp := (drawSprite s x y n).disp } (drawSprite s x y n).collided) := by
  have hin : n.toNat = 0 ∨ s.i.toNat + n.toNat ≤ 0x1000 := h.imp_left (congrArg BitVec.toNat)
  exact (State.withAccess_eq ..).trans (if_pos hin)

theorem State.v_setVF_eq_one_iff (s : State) (f : Bool) : (s.setVF f).v regVF = 1 ↔ f = true := by
  rw [State.v_setVF, if_pos rfl]
  cases f <;> decide

/-- Settles O38: the pixels and the collision are `drawSprite_toggles`, started with no collision yet. -/
theorem drawTogglesCoveredPixels : Obligations.DrawTogglesCoveredPixels := by
  intro s x y n h
  obtain ⟨inside, outside, collided_iff⟩ := drawSprite_toggles s x y n
  refine ⟨_, exec_drw_of_inRange x y h, inside, outside, State.v_setVF_zero_or_one _ _, ?flag, rfl, ?frame⟩
  case flag => exact (State.v_setVF_eq_one_iff _ _).trans (collided_iff.trans (or_iff_right Bool.false_ne_true))
  case frame => exact (Frame.advance s).seq ((Frame.setVF _ _).seq (Frame.withDisp _ _))

end Sys2Proof.Machine
end

section
/-! SUPPORT. The family of 44_keypad_timers.md: the key skips and the timer transfers. -/

namespace Sys2Proof.Machine

/-! ### The key number in a register (R807) -/

section
variable {s : State} {x k : Nibble}

theorem keyOperand_eq_some (h : (s.v x).toNat = k.toNat) : keyOperand s x = some k := by
  have in_range : (s.v x).toNat ≤ 0xF := h ▸ Nat.le_of_lt_succ k.isLt
  have low_nibble : (s.v x).setWidth 4 = k := by
    rw [← BitVec.toNat_inj, BitVec.toNat_setWidth, h, Nat.mod_eq_of_lt k.isLt]
  rw [keyOperand, if_pos in_range, low_nibble]

theorem keyOperand_eq_none (h : 0xF < (s.v x).toNat) : keyOperand s x = none :=
  if_neg (Nat.not_le_of_lt h)

/-! ### EX9E and EXA1 as equations (R800, R801) -/

theorem exec_skp_of_key (h : (s.v x).toNat = k.toNat) :
    exec (.skp x) s = .next (s.advance.skipIf (s.key k)) := by
  simp only [exec, execSkp, keyOperand_eq_some h]

theorem exec_sknp_of_key (h : (s.v x).toNat = k.toNat) :
    exec (.sknp x) s = .next (s.advance.skipIf (!s.key k)) := by
  simp only [exec, execSknp, keyOperand_eq_some h]

theorem exec_skp_of_no_key (h : 0xF < (s.v x).toNat) :
    exec (.skp x) s = .next (failed s (.keyIndexOutOfRange (s.v x)) (some (encode (.skp x)))) := by
  simp only [exec, execSkp, keyOperand_eq_none h, State.raise_eq]

theorem exec_sknp_of_no_key (h : 0xF < (s.v x).toNat) :
    exec (.sknp x) s = .next (failed s (.keyIndexOutOfRange (s.v x)) (some (encode (.sknp x)))) := by
  simp only [exec, execSknp, keyOperand_eq_none h, State.raise_eq]

end

/-- A skip taken when `c` is false is `pc_skipIf_advance` with its two targets exchanged. -/
theorem State.pc_skipIf_not_advance (s : State) (c : Bool) :
    (s.advance.skipIf !c).pc = if c then s.pc + 2 else s.pc + 4 := by
  simp only [State.pc_skipIf_advance, Bool.not_eq_true', ← Bool.not_eq_true, ite_not]

/-- Settles O40: with a key number in `Vx` each is a skip on that key or on its negation, and with another value a failure. -/
theorem keySkipsTestOneKey : Obligations.KeySkipsTestOneKey := fun s _ =>
  ⟨fun _ hk =>
    ⟨⟨_, exec_skp_of_key hk, State.pc_skipIf_advance s _, Frame.skipIf_advance s _⟩,
      ⟨_, exec_sknp_of_key hk, State.pc_skipIf_not_advance s _, Frame.skipIf_advance s _⟩⟩,
    fun hv => ⟨exec_skp_of_no_key hv, exec_sknp_of_no_key hv⟩⟩

/-! ### FX15 and FX18 (R805, R806) -/

theorem Frame.withDT (s : State) (b : Byte) : Frame s { s with dt := b } (· = .dt) := by
  intro c hc
  cases c with
  | dt => exact absurd rfl hc
  | _ => rfl

theorem Frame.withST (s : State) (b : Byte) : Frame s { s with st := b } (· = .st) := by
  intro c hc
  cases c with
  | st => exact absurd rfl hc
  | _ => rfl

/-- Settles O41: each is the advance and one write of a timer. -/
theorem timersSetFromRegister : Obligations.TimersSetFromRegister := fun s x =>
  ⟨⟨_, rfl, rfl, rfl, (Frame.advance s).seq (Frame.withDT _ (s.v x))⟩,
    ⟨_, rfl, rfl, rfl, (Frame.advance s).seq (Frame.withST _ (s.v x))⟩⟩

end Sys2Proof.Machine
end

section
/-! SUPPORT. The family of 45_index_memory.md: the loads of `I`, the decimal digits, and the registers stored and loaded back. -/

namespace Sys2Proof.Machine

/-! ### ANNN and FX29 (R900, R902) -/

/-- Five times a byte fits 16 bits, so the glyph address is the whole product (R902). -/
@[simp] theorem glyphAddress_toNat (s : State) (x : Nibble) : (glyphAddress s x).toNat = (s.v x).toNat * 5 := by
  have hv := (s.v x).isLt
  have five : (5 : Word).toNat = 5 := rfl
  simp only [glyphAddress, regOperand16, BitVec.toNat_mul, BitVec.toNat_setWidth, five]
  omega

theorem Frame.setI_advance (s : State) (a : Word) : Frame s (s.advance.setI a) (fun c => c = .pc ∨ c = .i) :=
  (Frame.advance s).seq (Frame.setI _ a)

/-- Settles O46: both are the advance and one write of `I`, of an operand that keeps its value in 16 bits. -/
theorem indexLoads : Obligations.IndexLoads := fun s x nnn =>
  ⟨⟨_, rfl, addrOperand_toNat nnn, rfl, Frame.setI_advance s _⟩,
    ⟨_, rfl, glyphAddress_toNat s x, rfl, Frame.setI_advance s _⟩⟩

/-! ### FX33 (R903) -/

/-- Writing bytes after the advance, as FX33 and FX55 do, changes `PC` and those addresses alone. -/
theorem Frame.writeBytes_advance (s : State) (base : Nat) (bs : List Byte) :
    Frame s { s.advance with mem := s.mem.writeBytes base bs } (fun c => c = .pc ∨ ∃ k < bs.length, c = .mem (base + k)) :=
  (Frame.advance s).seq (Frame.writeBytes s.advance base bs)

/-- A decimal digit of a byte reads back from its address as a number (R903). -/
theorem toNat_read_writeBytes_decimalDigits {m : Memory} (hm : m.wf) {base k d : Nat} {v : Byte}
    (hin : base + 3 ≤ Memory.size) (hk : k < 3) (hd : d < 256) (digit : (decimalDigits v).getD k 0 = BitVec.ofNat 8 d) :
    ((m.writeBytes base (decimalDigits v)).read (base + k)).toNat = d := by
  rw [Memory.read_writeBytes_inside hm hin hk, digit]
  exact Nat.mod_eq_of_lt hd

/-- Settles O48: the digits are the three bytes written from `I` up, and each of them fits a byte. -/
theorem bcdStoresDigits : Obligations.BcdStoresDigits := by
  intro s x hm hin
  have hv := (s.v x).isLt
  refine ⟨_, exec_ldBVx_of_inRange x hin, ?hundreds, ?tens, ?units, rfl, Frame.writeBytes_advance s _ _⟩
  case hundreds => exact toNat_read_writeBytes_decimalDigits hm hin (k := 0) (by decide) (by omega) rfl
  case tens => exact toNat_read_writeBytes_decimalDigits hm hin (k := 1) (by decide) (by omega) rfl
  case units => exact toNat_read_writeBytes_decimalDigits hm hin (k := 2) (by decide) (by omega) rfl

/-! ### FX55, then FX65 (R904, R905) -/

theorem getD_regsThrough (s : State) {x r : Nibble} (hr : r.toNat ≤ x.toNat) : (regsThrough s x).getD r.toNat 0 = s.v r := by
  have hlt : r.toNat < x.toNat + 1 := Nat.lt_succ_of_le hr
  simp [regsThrough, List.getD_eq_getElem?_getD, hlt]

/-- After FX55 each stored register stands at its own address (R904). -/
theorem read_writeBytes_regsThrough {s : State} {x r : Nibble} (hm : s.mem.wf) (hin : InRange s (x.toNat + 1))
    (hr : r.toNat ≤ x.toNat) :
    (s.mem.writeBytes s.i.toNat (regsThrough s x)).read (s.i.toNat + r.toNat) = s.v r := by
  rw [Memory.read_writeBytes_inside hm (by rwa [length_regsThrough]) (by rw [length_regsThrough]; omega),
    getD_regsThrough s hr]

/-- FX65 in range (R905). -/
theorem exec_ldVxMem_of_inRange {s : State} (x : Nibble) (h : InRange s (x.toNat + 1)) :
    exec (.ldVxMem x) s = .next (s.advance.setVs 0 (s.mem.readBytes s.i.toNat (x.toNat + 1))) :=
  State.withAccess_of_inRange _ _ h

/-- Of `V0..Vx` loaded from memory each register holds the byte at its own address (R905). -/
theorem State.v_setVs_readBytes (s : State) (m : Memory) (base : Nat) {x r : Nibble} (hr : r.toNat ≤ x.toNat) :
    (s.setVs 0 (m.readBytes base (x.toNat + 1))).v r = m.read (base + r.toNat) := by
  have hx := x.isLt
  have hlt : r.toNat < x.toNat + 1 := Nat.lt_succ_of_le hr
  rw [State.v_setVs _ _ _ _ (by rw [Memory.length_readBytes]; omega),
    if_pos (by rw [Memory.length_readBytes]; omega), Nat.sub_zero, Memory.getD_readBytes m base hlt]

/-- Settles O51: FX55 leaves `I`, so FX65 reads the addresses written, and register `r` was written at `I + r`. -/
theorem storeThenLoadRestores : Obligations.StoreThenLoadRestores := by
  intro s t x vs hm hin h
  cases h.symm.trans (exec_ldMemVx_of_inRange x hin)
  exact ⟨_, exec_ldVxMem_of_inRange x hin, fun r hr =>
    (State.v_setVs_readBytes _ _ _ hr).trans (read_writeBytes_regsThrough hm hin hr)⟩

end Sys2Proof.Machine
end

section
/-! SUPPORT. The family of 60_exceptions.md: the failing fetch, what a failing step leaves, the end of a run, and the error port. -/

namespace Sys2Proof.Machine

/-! ### A failing step (R1004, R1007, R1008) -/

/-- Settles O9: the first address above 0xFFF of the two fetched is 0x1000 when `PC` is 0xFFF, and `PC` itself beyond. -/
theorem fetchOutOfRangeFaults : Obligations.FetchOutOfRangeFaults := by
  intro s hr hpc
  have first : max s.pc.toNat 0x1000 = if s.pc.toNat = 0xFFF then 0x1000 else s.pc.toNat := by
    split <;> omega
  rw [step_of_not_fetchable hr (Nat.not_lt.mpr hpc), first]

/-- The poll does not fail (R406). -/
@[simp] theorem keyWaitPoll_fault (r k : Nibble) (s : State) : (keyWaitPoll r k s).fault = s.fault := by
  unfold keyWaitPoll
  split <;> rfl

/-- A step that sets `fault` failed in the fetch, or with the fetched word recorded, in a block that was not waiting. -/
theorem step_failed_cases {s t : State} (h : step s = .next t) (ht : t.fault ≠ none) :
    s.wait = .normal ∧ ∃ kind,
      (¬ Fetchable s ∧ t = failed s kind none) ∨ (Fetchable s ∧ t = failed s kind (some (fetchedWord s))) := by
  obtain ⟨hf, ⟨r, k, -, rfl⟩ | ⟨hw, hpc, rfl⟩ | ⟨hw, hpc, rfl⟩ | ⟨hw, hpc, i, hd, he⟩⟩ := step_cases h
  · exact absurd ((keyWaitPoll_fault r k s).trans hf) ht
  · exact ⟨hw, _, .inl ⟨Nat.not_lt.mpr hpc, rfl⟩⟩
  · exact ⟨hw, _, .inr ⟨hpc, rfl⟩⟩
  · obtain ⟨kind, rfl, -⟩ | ⟨e, -⟩ := exec_cases he
    · exact ⟨hw, kind, .inr ⟨hpc, by rw [Laws.encode_of_decode hd]⟩⟩
    · exact absurd (e.trans hf) ht

/-- Settles O13: every way to fail leaves `failed`, with no word when the fetch failed and the fetched one otherwise. -/
theorem faultsArePrecise : Obligations.FaultsArePrecise := by
  intro s t r _ h ht
  obtain ⟨hw, kind, ⟨hpc, rfl⟩ | ⟨hpc, rfl⟩⟩ := step_failed_cases h (by simp [ht])
  · cases ht
    exact ⟨rfl, rfl, hw, by rw [if_neg hpc]⟩
  · cases ht
    exact ⟨rfl, rfl, hw, by rw [if_pos hpc]⟩

/-! ### The end of a run (R1009; 70_reset_and_hazards.md R1107) -/

/-- An address operand holds every address of 12 bits. -/
theorem addrOperand_setWidth {h : Word} (hh : h.toNat ≤ 0xFFE) : addrOperand (h.setWidth 12) = h := by
  apply BitVec.eq_of_toNat_eq
  rw [addrOperand_toNat, BitVec.toNat_setWidth]
  omega

section
variable {h : Word} {s t : State}

/-- The fetched word is the jump to the address it stands at, which `PC` holds already. -/
theorem Parked.step_self (hp : Parked h s) : step s = .next s := by
  obtain ⟨hf, hw, rfl, hle, hjump⟩ := hp
  have hd : decode (fetchedWord s) = .ok (.jp (s.pc.setWidth 12)) := by rw [hjump, Laws.decodeOfEncode]
  calc step s = exec (.jp (s.pc.setWidth 12)) s := step_of_decode ⟨hf, hw⟩ (Nat.lt_succ_of_le hle) hd
    _ = .next (s.jump (addrOperand (s.pc.setWidth 12))) := rfl
    _ = .next s := by rw [addrOperand_setWidth hle]; rfl

theorem Parked.update_eq (hp : Parked h s) (n : Nat) : s.update n = .next s.timerDecay :=
  State.update_of_completed hp.fault_none (State.runCycles_of_step_self hp.fault_none hp.step_self n) hp.fault_none

/-- The decay writes the timers, of which being parked does not speak. -/
theorem Parked.timerDecay (hp : Parked h s) : Parked h s.timerDecay :=
  ⟨hp.fault_none, hp.wait_normal, hp.pc_eq, hp.in_range, hp.self_jump⟩

/-- Only a block that is not faulted has a next state (R411). -/
theorem fault_none_of_step (hs : step s = .next t) : s.fault = none := (step_cases hs).1

theorem State.fault_none_of_update {n : Nat} (hu : s.update n = .next t) : s.fault = none := by
  unfold State.update at hu
  split at hu
  · cases hu
  · assumption

end

/-- Settles O57: a faulted block has no next state, and a parked one is left as it is but for the timers. -/
theorem endedRunStaysEnded : Obligations.EndedRunStaysEnded := by
  rintro s t n (hf | ⟨h, hp⟩) hnext
  · exact absurd (hnext.elim fault_none_of_step State.fault_none_of_update) hf
  · obtain hs | hu := hnext
    · cases hs.symm.trans hp.step_self
      exact .inr ⟨h, hp⟩
    · cases hu.symm.trans (hp.update_eq n)
      exact .inr ⟨h, hp.timerDecay⟩

/-! ### The error port (R1000, R1007) -/

theorem State.errorPort_of_unfaulted {s : State} (hf : s.fault = none) : s.errorPort = none := by
  rw [State.errorPort, hf, Option.map_none]

theorem State.errorPort_of_faulted {s : State} {r : FaultRecord} (hf : s.fault = some r) :
    s.errorPort = some (r.kind, r.kind.code, r.pc, r.op, r.kind.info) := by
  rw [State.errorPort, hf, Option.map_some]

/-- Settles O60: the port computes the code and the info from the recorded kind, one row of R1000 per kind. -/
theorem errorPortGivesCodeAndInfo : Obligations.ErrorPortGivesCodeAndInfo := by
  refine fun s => ⟨State.errorPort_of_unfaulted, fun r hf => ⟨_, _, State.errorPort_of_faulted hf, ?_⟩⟩
  refine ⟨fun w e => ?_, fun e => ?_, fun e => ?_, fun n e => ?_, fun a e => ?_, fun v e => ?_⟩ <;>
    exact e ▸ ⟨rfl, rfl⟩

end Sys2Proof.Machine
end

section
/-! SUPPORT. The family of 70_reset_and_hazards.md: the state that reset installs. -/

namespace Sys2Proof.Machine

/-! ### The reset state, piece by piece (10_state.md R100) -/

@[simp] theorem State.reset_v (r : Nibble) : State.reset.v r = 0 := Vector.getElem_replicate _

@[simp] theorem State.reset_stack_get (k : Fin 16) : State.reset.stack.get k = 0 := Vector.getElem_replicate _

@[simp] theorem State.reset_key (k : Nibble) : State.reset.key k = false := Vector.getElem_replicate _

@[simp] theorem State.reset_getPixel (x : Fin 64) (y : Fin 32) : State.reset.getPixel x y = false :=
  Display.pixel_clear x y

/-- Reset installs construction with the block's FONT, and leaves the draws alone (R1100, R1101; log entry 4). -/
theorem Component.same_hostReset_construct (font : Font) (s : State) {c : Component} (hc : c ≠ .draws) :
    c.same (s.hostReset font) (State.construct font) := by
  cases c with
  | draws => exact absurd rfl hc
  | _ => rfl

/-- The digits' glyphs, five bytes each, lie within the 80 of FONT (R209). -/
theorem Memory.read_withFont_glyph (font : Font) (d : Fin 16) (j : Fin 5) :
    (Memory.withFont font).read (5 * d + j) = font[5 * d.val + j.val] :=
  Memory.read_withFont_inside font (by omega)

/-- Settles O15: every piece but memory and the draws is the reset state's, and memory is FONT with zeros above it. -/
theorem resetInstallsTable : Obligations.ResetInstallsTable := by
  refine ⟨?_, State.construct_default⟩
  rintro font s t rfl
  exact ⟨rfl, rfl, rfl, rfl, rfl, rfl, rfl, rfl, State.reset_v, State.reset_stack_get, State.reset_key, State.reset_getPixel,
    Memory.read_withFont_glyph font, fun _ => Memory.read_withFont_outside font,
    fun _ => Component.same_hostReset_construct font s⟩

end Sys2Proof.Machine
end

section
/-! SUPPORT. The decoder against the opcode map (30_encoding.md R303 to R305), in both directions. -/

namespace Sys2Proof.Laws

/-- Settles O2: the fields that select an instruction are those of its word. -/
theorem encodeOfDecode : Obligations.EncodeOfDecode := fun _ _ => encode_of_decode

/-- Settles O6: eight words, decoded. -/
theorem sampleWordsDecode : Obligations.SampleWordsDecode := by
  unfold Obligations.SampleWordsDecode
  decide

/-! ### A word that selects a row decodes (R303)

One lemma per mask of the map: a nibble that the mask covers is kept whole (`BitVec.and_allOnes`), so it is the row's, and the row
may not depend on the others. -/

section
variable {op bits : Word}

theorem decodes_of_decodeFields
    (h : (decodeFields (opClass op) (opX op) (opY op) (opN op) (opNN op) (opNNN op)).isSome) : ∃ i, decode op = .ok i :=
  (Option.isSome_iff_exists.mp h).imp fun _ => decode_of_decodeFields

/-- The two nibbles of `nn` determine it (R301). -/
theorem opNN_ext {op op' : Word} (hy : opY op = opY op') (hn : opN op = opN op') : opNN op = opNN op' := by
  obtain ⟨-, -, y, n, nn, -⟩ := toNat_fields op
  obtain ⟨-, -, y', n', nn', -⟩ := toNat_fields op'
  rw [hy] at y
  rw [hn] at n
  apply BitVec.eq_of_toNat_eq
  omega

theorem decodes_of_selects_word (h : selectsRow op (0xFFFF, bits) = true) (hd : ∃ i, decode bits = .ok i) :
    ∃ i, decode op = .ok i := by
  have e : op = bits := BitVec.and_allOnes.symm.trans (eq_of_beq h)
  rwa [e]

theorem decodes_of_selects_class (h : selectsRow op (0xF000, bits) = true)
    (hd : ∀ x y n nn nnn, (decodeFields (opClass bits) x y n nn nnn).isSome) : ∃ i, decode op = .ok i := by
  obtain ⟨hc, -⟩ := (selectsRow_iff op _ _).mp h
  have ec : opClass op = opClass bits := BitVec.and_allOnes.symm.trans hc
  exact decodes_of_decodeFields (ec ▸ hd _ _ _ _ _)

theorem decodes_of_selects_class_n (h : selectsRow op (0xF00F, bits) = true)
    (hd : ∀ x y nn nnn, (decodeFields (opClass bits) x y (opN bits) nn nnn).isSome) : ∃ i, decode op = .ok i := by
  obtain ⟨hc, -, -, hn⟩ := (selectsRow_iff op _ _).mp h
  have ec : opClass op = opClass bits := BitVec.and_allOnes.symm.trans hc
  have en : opN op = opN bits := BitVec.and_allOnes.symm.trans hn
  exact decodes_of_decodeFields (ec ▸ en ▸ hd _ _ _ _)

theorem decodes_of_selects_class_nn (h : selectsRow op (0xF0FF, bits) = true)
    (hd : ∀ x y n nnn, (decodeFields (opClass bits) x y n (opNN bits) nnn).isSome) : ∃ i, decode op = .ok i := by
  obtain ⟨hc, -, hy, hn⟩ := (selectsRow_iff op _ _).mp h
  have ec : opClass op = opClass bits := BitVec.and_allOnes.symm.trans hc
  have enn : opNN op = opNN bits := opNN_ext (BitVec.and_allOnes.symm.trans hy) (BitVec.and_allOnes.symm.trans hn)
  exact decodes_of_decodeFields (ec ▸ enn ▸ hd _ _ _ _)

theorem decodes_of_selects_instr_row (i : Instr) (h : selectsRow op (rowMask i, rowMatch i) = true) :
    ∃ i, decode op = .ok i := by
  cases i with
  | cls => exact decodes_of_selects_word h ⟨.cls, decodeOfEncode .cls⟩
  | ret => exact decodes_of_selects_word h ⟨.ret, decodeOfEncode .ret⟩
  | jp _ | call _ | seImm _ _ | sneImm _ _ | ldImm _ _ | addImm _ _ | ldI _ | jpV0 _ | rnd _ _ | drw _ _ _ =>
    simp only [rowMask, rowMatch] at h
    exact decodes_of_selects_class h fun _ _ _ _ _ => rfl
  | seReg _ _ | sneReg _ _ | ldReg _ _ | orReg _ _ | andReg _ _ | xorReg _ _ | addReg _ _ | subReg _ _ | shr _ _
  | subnReg _ _ | shl _ _ =>
    simp only [rowMask, rowMatch] at h
    exact decodes_of_selects_class_n h fun _ _ _ _ => rfl
  | skp _ | sknp _ | ldVxDT _ | ldVxK _ | ldDTVx _ | ldSTVx _ | addIVx _ | ldFVx _ | ldBVx _ | ldMemVx _ | ldVxMem _ =>
    simp only [rowMask, rowMatch] at h
    exact decodes_of_selects_class_nn h fun _ _ _ _ => rfl

end

/-- One instruction of each row, in the map's order. -/
def rowInstrs : List Instr :=
  [.cls, .ret, .jp 0, .call 0, .seImm 0 0, .sneImm 0 0, .seReg 0 0, .ldImm 0 0, .addImm 0 0, .ldReg 0 0, .orReg 0 0,
   .andReg 0 0, .xorReg 0 0, .addReg 0 0, .subReg 0 0, .shr 0 0, .subnReg 0 0, .shl 0 0, .sneReg 0 0, .ldI 0, .jpV0 0,
   .rnd 0 0, .drw 0 0 0, .skp 0, .sknp 0, .ldVxDT 0, .ldVxK 0, .ldDTVx 0, .ldSTVx 0, .addIVx 0, .ldFVx 0, .ldBVx 0,
   .ldMemVx 0, .ldVxMem 0]

theorem opcodeRows_eq_map : opcodeRows = rowInstrs.map (fun i => (rowMask i, rowMatch i)) := rfl

theorem decodes_of_selectsRow {op : Word} {row : Word × Word} (hrow : row ∈ opcodeRows) (h : selectsRow op row = true) :
    ∃ i, decode op = .ok i := by
  rw [opcodeRows_eq_map] at hrow
  obtain ⟨i, -, rfl⟩ := List.mem_map.mp hrow
  exact decodes_of_selects_instr_row i h

/-- Settles O3: a decoded word is its instruction's word, which selects that row; and a word that selects a row decodes. -/
theorem decodeFollowsOpcodeMap : Obligations.DecodeFollowsOpcodeMap := by
  refine fun op => ⟨fun i h => encode_of_decode h ▸ selectsRow_encode i, fun herr row hrow => ?_, decode_of_no_row⟩
  by_contra hsel
  obtain ⟨i, hok⟩ := decodes_of_selectsRow hrow (Bool.eq_true_of_not_eq_false hsel)
  cases herr.symm.trans hok

/-- Settles O4: the bits both masks keep are the same for two selected rows, and no two rows of the map agree on them. -/
theorem opcodeRowsDisjoint : Obligations.OpcodeRowsDisjoint := by
  have apart : opcodeRows.Pairwise (fun a b => a.2 &&& b.1 ≠ b.2 &&& a.1) := by decide
  refine apart.imp fun {a b} hne op ⟨ha, hb⟩ => hne ?_
  calc a.2 &&& b.1 = op &&& a.1 &&& b.1 := by rw [eq_of_beq ha]
    _ = op &&& b.1 &&& a.1 := by rw [BitVec.and_assoc, BitVec.and_comm a.1, ← BitVec.and_assoc]
    _ = b.2 &&& a.1 := by rw [eq_of_beq hb]

end Sys2Proof.Laws
end

section
/-! SUPPORT. The faulted block (40_cycle.md R411), and a call with its return (41_control.md R501, R502). -/

namespace Sys2Proof.Machine

/-! ### The faulted block (R411) -/

section
variable {s : State} {r : FaultRecord}

theorem step_of_faulted (hf : s.fault = some r) : step s = .fault (.stuck r) := by
  simp only [step, State.cycle, hf]

theorem State.update_of_faulted (n : Nat) (hf : s.fault = some r) : s.update n = .fault (.stuck r) := by
  simp only [State.update, hf]

end

/-- Settles O11: the cycle and the update both ask for the fault first. -/
theorem faultedBlockIsStuck : Obligations.FaultedBlockIsStuck := fun _ _ n hf =>
  ⟨step_of_faulted hf, State.update_of_faulted n hf⟩

/-! ### Call, then return (R501, R502) -/

/-- Settles O27: the return pops the entry that the call pushed, so `SP` is back where it was. -/
theorem callThenReturnComesBack : Obligations.CallThenReturnComesBack := by
  intro s nnn k hk
  have lt : s.sp.val < 16 := hk ▸ k.isLt
  refine ⟨_, _, exec_call_of_room nnn lt, exec_ret_of_nonempty (k := s.sp.val) rfl lt, ?popped, fun c hc => ?_⟩
  case popped => exact Vector.getElem_set_self lt
  cases c with
  | pc => simp at hc
  | stackEntry j =>
    have hj : s.sp.val ≠ j.val := fun e => hc (by simp [← Fin.val_inj, ← hk, e])
    simp [Component.same, Vector.get_eq_getElem, hj]
  | _ => rfl

end Sys2Proof.Machine
end

section
/-! SUPPORT. The flag writers with VF as the destination, and CXNN (42_alu.md R609, R615). -/

namespace Sys2Proof.Machine

/-! ### VF as the destination (R609) -/

theorem Frame.setResultAndFlag_regVF_advance (s : State) (b : Byte) (f : Bool) :
    Frame s (s.advance.setResultAndFlag regVF b f) (fun c => c = .pc ∨ c = .v regVF) :=
  (Frame.setResultAndFlag_advance s regVF b f).mono fun _ => Or.imp_right or_self_iff.mp

/-- Settles O35: the flag is the last write, so the result of the same register is lost (D6). -/
theorem flagWinsOverResult : Obligations.FlagWinsOverResult := by
  intro s y
  refine ⟨⟨_, rfl, ?carry, rfl, Frame.setResultAndFlag_regVF_advance s _ _⟩,
    ⟨_, rfl, ?noBorrow, rfl, Frame.setResultAndFlag_regVF_advance s _ _⟩,
    ⟨_, rfl, ?noBorrowReversed, rfl, Frame.setResultAndFlag_regVF_advance s _ _⟩,
    ⟨_, rfl, ?rightOut, rfl, Frame.setResultAndFlag_regVF_advance s _ _⟩,
    ⟨_, rfl, ?leftOut, rfl, Frame.setResultAndFlag_regVF_advance s _ _⟩⟩
  case carry => rw [State.v_setResultAndFlag_regVF, flag_carryOut]
  case noBorrow => rw [State.v_setResultAndFlag_regVF, flag_noBorrow]
  case noBorrowReversed => rw [State.v_setResultAndFlag_regVF, flag_noBorrow]
  case rightOut => rw [State.v_setResultAndFlag_regVF, toNat_flag_shiftOutRight]
  case leftOut => rw [State.v_setResultAndFlag_regVF, toNat_flag_shiftOutLeft]

/-! ### CXNN (R615) -/

/-- Settles O36: one register write of the drawn byte under the mask, and the draw counted. -/
theorem randomIsMaskedDraw : Obligations.RandomIsMaskedDraw := by
  intro s x nn
  refine ⟨_, rfl, fun k => ?bits, ?zeroMask, rfl, rfl, ?frame⟩
  case bits => rw [State.v_setV_self, State.rngByte, BitVec.getLsbD_and]
  case zeroMask =>
    rintro rfl
    exact (State.v_setV_self _ x _).trans BitVec.and_zero
  case frame =>
    exact ((Frame.advance s).seq ((Frame.drawn _).seq (Frame.setV _ x _))).mono fun _ => Or.imp_right Or.symm

end Sys2Proof.Machine
end

section
/-! SUPPORT. The same sprite drawn twice (43_display.md R705). -/

namespace Sys2Proof.Machine

/-- What a sprite covers is a matter of its coordinates, of `I` and of the bytes there. -/
theorem spriteCovers_congr {s t : State} {x y : Nibble} (n : Nibble) (hx : t.v x = s.v x) (hy : t.v y = s.v y)
    (hi : t.i = s.i) (hmem : t.mem = s.mem) (px : Fin 64) (py : Fin 32) :
    SpriteCovers t x y n px py ↔ SpriteCovers s x y n px py := by
  simp only [SpriteCovers, hx, hy, hi, hmem]

/-- Settles O39: with the coordinates kept the second draw covers the same pixels, so it toggles back what the first toggled
and meets a set pixel exactly where the first met a clear one. -/
theorem drawTwiceRestores : Obligations.DrawTwiceRestores := by
  intro s t x y n h hdraw hx hy
  have hi : t.i = s.i := (congrArg State.i (exec_writesFields hdraw) :)
  have hmem : t.mem = s.mem := (congrArg State.mem (exec_writesFields hdraw) :)
  have ht : n = 0 ∨ InRange t n.toNat := by simpa only [InRange, hi] using h
  obtain ⟨t', hdraw', inside, outside, -⟩ := drawTogglesCoveredPixels s x y n h
  obtain rfl : t = t' := next_inj.mp (hdraw.symm.trans hdraw')
  obtain ⟨u, hu, inside', outside', -, collision, -⟩ := drawTogglesCoveredPixels t x y n ht
  simp only [spriteCovers_congr n hx hy hi hmem] at inside' outside' collision
  refine ⟨u, hu, fun px py => ?_, ?_⟩
  · by_cases hc : SpriteCovers s x y n px py
    · rw [inside' px py hc, inside px py hc, Bool.not_not]
    · rw [outside' px py hc, outside px py hc]
  · refine collision.trans (exists₂_congr fun px py => and_congr_right fun hc => ?_)
    rw [inside px py hc, Bool.not_eq_true']

end Sys2Proof.Machine
end

section
/-! SUPPORT. The capture of a key by FX0A (44_keypad_timers.md R803). -/

namespace Sys2Proof.Machine

section
variable {s : State}

/-- With some key down FX0A captures one of the down keys. -/
theorem exec_ldVxK_of_down (x : Nibble) {k : Nibble} (hk : s.key k = true) :
    ∃ j, s.key j = true ∧ exec (.ldVxK x) s = .next { s.advance.drawn with wait := .waiting x j } := by
  have listed := (s.mem_keysDown k).mpr hk
  simp only [exec, execLdVxK]
  cases hd : s.keysDown with
  | nil => simp [hd] at listed
  | cons first rest =>
    have chosen := chooseKey_mem first rest (Config.keyChoice s.draws)
    exact ⟨_, (s.mem_keysDown _).mp (hd ▸ chosen), rfl⟩

/-- With no key down FX0A puts `PC` back, so it changes nothing. -/
theorem exec_ldVxK_of_none_down (x : Nibble) (h : ∀ k, s.key k = false) : exec (.ldVxK x) s = .next s := by
  have none_listed : s.keysDown = [] :=
    List.eq_nil_iff_forall_not_mem.mpr fun k hk => Bool.false_ne_true ((h k).symm.trans ((s.mem_keysDown k).mp hk))
  have back : s.advance.pc - 2 = s.pc := BitVec.add_sub_cancel s.pc 2
  simp only [exec, execLdVxK, none_listed, back]
  rfl

end

theorem Frame.withWait (s : State) (w : KeyWait) : Frame s { s with wait := w } (· = .wait) := by
  intro c hc
  cases c with
  | wait => exact absurd rfl hc
  | _ => rfl

/-- Settles O42: a capture is the advance, the draw of the choice and the wait; a stall is nothing. -/
theorem keyWaitCapturesOrStalls : Obligations.KeyWaitCapturesOrStalls := by
  refine fun s x => ⟨fun ⟨k, hk⟩ => ?_, exec_ldVxK_of_none_down x⟩
  obtain ⟨j, hj, he⟩ := exec_ldVxK_of_down x hk
  exact ⟨_, j, he, hj, rfl, rfl,
    ((Frame.advance s).seq ((Frame.drawn _).seq (Frame.withWait _ _))).mono fun _ => Or.imp_right Or.symm⟩

/-- Settles O43: the captured key is down, and only `k` is. -/
theorem onlyKeyDownIsCaptured : Obligations.OnlyKeyDownIsCaptured := by
  intro s x k hk only
  obtain ⟨j, hj, he⟩ := exec_ldVxK_of_down x hk
  obtain rfl := only j hj
  exact ⟨_, he, rfl⟩

end Sys2Proof.Machine
end

section
/-! SUPPORT. FX1E, FX55 and FX65 in full (45_index_memory.md R901, R904, R905). -/

namespace Sys2Proof.Machine

/-! ### FX1E (R901) -/

theorem toNat_add_regOperand16 (s : State) (a : Word) (x : Nibble) :
    (a + regOperand16 s x).toNat = (a.toNat + (s.v x).toNat) % 65536 := by
  have hv := (s.v x).isLt
  simp only [regOperand16, BitVec.toNat_add, BitVec.toNat_setWidth]
  omega

theorem flag_indexCarry (i : Word) (a : Byte) :
    (if indexCarry i a then 1 else 0 : Byte) = if i.toNat + a.toNat > 0xFFFF then 1 else 0 := by
  simp only [indexCarry, decide_eq_true_eq]

/-- Settles O47: the sum goes to `I` and then the carry to VF, both of the operands of before (D6). -/
theorem indexAddCarries : Obligations.IndexAddCarries := by
  intro s x
  refine ⟨_, rfl, toNat_add_regOperand16 s s.i x, ?carry, rfl, ?frame⟩
  case carry => rw [State.v_setVF, if_pos rfl, flag_indexCarry]
  case frame => exact (Frame.advance s).seq ((Frame.setI _ _).seq (Frame.setVF _ _))

/-! ### FX55 and FX65 (R904, R905) -/

/-- Settles O49: register `r` is the byte written at `I + r`, and only those bytes are written. -/
theorem storeRegistersToMemory : Obligations.StoreRegistersToMemory := by
  intro s x hm hin
  have stored := Frame.writeBytes_advance s s.i.toNat (regsThrough s x)
  simp only [length_regsThrough, Nat.lt_succ_iff] at stored
  exact ⟨_, exec_ldMemVx_of_inRange x hin, fun r hr => read_writeBytes_regsThrough hm hin hr, rfl, stored⟩

/-- Loading consecutive registers changes those registers alone. -/
theorem Frame.setVs (s : State) (first : Nat) (bs : List Byte) (h : first + bs.length ≤ 16) :
    Frame s (s.setVs first bs) (fun c => ∃ r : Nibble, (first ≤ r.toNat ∧ r.toNat < first + bs.length) ∧ c = .v r) := by
  intro c hc
  cases c with
  | v r => exact (State.v_setVs s first bs r h).trans (if_neg fun hr => hc ⟨r, hr, rfl⟩)
  | _ => simp [Component.same]

/-- Settles O50: register `r` gets the byte at `I + r`, and only `V0..Vx` are loaded. -/
theorem loadRegistersFromMemory : Obligations.LoadRegistersFromMemory := by
  intro s x hin
  have hx := x.isLt
  refine ⟨_, exec_ldVxMem_of_inRange x hin, fun r hr => State.v_setVs_readBytes _ _ _ hr, by simp, ?frame⟩
  case frame =>
    have loaded := Frame.setVs s.advance 0 (s.mem.readBytes s.i.toNat (x.toNat + 1)) (by rw [Memory.length_readBytes]; omega)
    simp only [Memory.length_readBytes, Nat.zero_le, true_and, Nat.zero_add, Nat.lt_succ_iff] at loaded
    exact (Frame.advance s).seq loaded

end Sys2Proof.Machine
end

section
/-! SUPPORT. The host's side: reset, load and update (20_memory.md R210; 70_reset_and_hazards.md R1100, R1104, R1107, R1108). -/

namespace Sys2Proof.Machine

/-! ### The invariant under the host's moves -/

section
variable {s t : State}

/-- The invariant speaks of memory, `PC`, the stack and `fault` alone. -/
theorem Inv.congr (hi : Inv s) (hmem : t.mem = s.mem) (hpc : t.pc = s.pc) (hstack : t.stack = s.stack)
    (hfault : t.fault = s.fault) : Inv t := by
  obtain ⟨mem_wf, ⟨pc_le, stack_le⟩, fault_here⟩ := hi
  refine ⟨hmem ▸ mem_wf, ⟨hpc ▸ pc_le, hstack ▸ stack_le⟩, fun r hr => ?_⟩
  rw [hpc]
  exact fault_here r (hfault ▸ hr)

theorem Inv.construct (font : Font) : Inv (State.construct font) := by
  refine ⟨Memory.wf_withFont font, ⟨(by decide : (0x200 : Word).toNat ≤ 0x10FE), fun k => ?_⟩, fun r hr => by cases hr⟩
  rw [State.construct_stack, State.reset_stack_get]
  decide

/-- What every step keeps, the cycles of an update keep. -/
theorem State.runCycles_keeps {P : State → Prop} (hstep : ∀ s t, P s → step s = .next t → P t) {n : Nat} (hs : P s)
    (h : State.runCycles n s = .next t) : P t := by
  induction n generalizing s with
  | zero =>
    cases h
    exact hs
  | succ n ih =>
    unfold State.runCycles at h
    split at h
    · next s' he =>
      have hs' := hstep s s' hs he
      split at h
      · cases h
        exact hs'
      · exact ih hs' h
    · cases h
    · cases h

/-- An update that answers ran its cycles, and then decayed the timers or, after a failure, did not (R407, R410). -/
theorem State.update_cases {n : Nat} (h : s.update n = .next t) :
    ∃ u, State.runCycles n s = .next u ∧ (t = u ∨ t = u.timerDecay) := by
  obtain ⟨u, hu, hcases⟩ := State.runCycles_cases n (State.fault_none_of_update h)
  refine ⟨u, hu, ?_⟩
  obtain ⟨hf, -⟩ | ⟨hf, -⟩ := hcases
  · cases h.symm.trans (State.update_of_completed (State.fault_none_of_update h) hu hf)
    exact .inr rfl
  · cases h.symm.trans (State.update_of_failing (State.fault_none_of_update h) hu hf)
    exact .inl rfl

theorem Inv.update {n : Nat} (hi : Inv s) (h : s.update n = .next t) : Inv t := by
  obtain ⟨u, hu, ht⟩ := State.update_cases h
  have hiu : Inv u := State.runCycles_keeps stepKeepsInv hi hu
  obtain rfl | rfl := ht
  · exact hiu
  · exact hiu.congr rfl rfl rfl rfl

/-- An accepted image lies within memory (R210), and `load` writes nothing else. -/
theorem Inv.load {bytes : List Byte} (hi : Inv s) (h : s.load bytes = .ok t) : Inv t := by
  obtain ⟨hle, rfl⟩ := State.load_ok h
  exact ⟨Memory.wf_writeBytes hi.mem_wf (Nat.add_le_add_left hle programStart), ⟨hi.bounded.pc_le, hi.bounded.stack_le⟩,
    hi.fault_here⟩

end

/-- Settles O17: reset is construction up to the draws, and the model's reset state is construction with the default FONT. -/
theorem invAtReset : Obligations.InvAtReset :=
  ⟨State.construct_default ▸ Inv.construct Config.font,
    fun font => ⟨Inv.construct font, fun _ => (Inv.construct font).congr rfl rfl rfl rfl⟩⟩

/-- Settles O19: an update is steps and a decay, a load is bytes within memory, and the keys are no part of the invariant. -/
theorem portsKeepInv : Obligations.PortsKeepInv := fun _ _ hi =>
  ⟨fun _ => hi.update, fun _ => hi.load, fun _ _ => hi.congr rfl rfl rfl rfl⟩

/-! ### The first cycle after a reset (R1104) -/

/-- With nothing loaded the word at 0x200 is 0x0000, whatever FONT is. -/
theorem fetchedWord_hostReset (font : Font) (s : State) : fetchedWord (s.hostReset font) = 0x0000 := by
  have first : (Memory.withFont font).read 0x200 = 0 := Memory.read_withFont_outside font (by decide)
  have second : (Memory.withFont font).read 0x201 = 0 := Memory.read_withFont_outside font (by decide)
  exact congrArg₂ wordOfBytes first second

theorem step_hostReset (font : Font) (s : State) :
    step (s.hostReset font) = .next (failed (s.hostReset font) (.unknownOpcode 0x0000) (some 0x0000)) := by
  have rejected : decode (fetchedWord (s.hostReset font)) = .error (.unknownOpcode 0x0000) := by
    rw [fetchedWord_hostReset]
    decide
  have fetchable : Fetchable (s.hostReset font) := (by decide : (0x200 : Word).toNat < 0xFFF)
  rw [step_of_decode_error ⟨rfl, rfl⟩ fetchable rejected, fetchedWord_hostReset]

/-- Settles O16: 0x0000 is no instruction, so the first cycle fails and is the last. -/
theorem unloadedBlockFaults : Obligations.UnloadedBlockFaults := by
  rintro font s t n rfl
  have first := step_hostReset font s
  have failing : (failed (s.hostReset font) (.unknownOpcode 0x0000) (some 0x0000)).fault ≠ none := Option.some_ne_none _
  exact ⟨first, State.update_of_failing rfl (State.runCycles_succ_of_failing first failing) failing⟩

/-! ### The parked block (R1107) -/

/-- Settles O56: the jump to itself changes nothing, and the decay writes the timers alone. -/
theorem parkedBlockStays : Obligations.ParkedBlockStays := fun _ _ n hp => ⟨hp.step_self, hp.update_eq n, hp.timerDecay⟩

/-! ### The load (R210, R1005) -/

theorem State.load_of_fits {bytes : List Byte} (s : State) (h : bytes.length ≤ maxProgramSize) :
    s.load bytes = .ok { s with mem := s.mem.writeBytes programStart bytes } := if_neg (Nat.not_lt.mpr h)

theorem State.load_of_too_long {bytes : List Byte} (s : State) (h : maxProgramSize < bytes.length) :
    s.load bytes = .error (.romTooLarge bytes.length) := if_pos h

/-- Settles O58: an image that fits ends within memory, so every byte reads back; a longer one is refused whole. -/
theorem loadPlacesImage : Obligations.LoadPlacesImage := by
  refine fun s bytes hm => ⟨fun hle => ?_, s.load_of_too_long⟩
  have hin : programStart + bytes.length ≤ Memory.size := Nat.add_le_add_left hle programStart
  exact ⟨_, s.load_of_fits hle, fun _ => Memory.read_writeBytes_inside hm hin, Frame.writeBytes s programStart bytes⟩

end Sys2Proof.Machine
end
